-- ==== Sys2Proof/Word.lean ====
section
/-! DEFINITION. The word types: bytes and 32-bit words (00_scope.md R7). -/

namespace Sys2Proof

/-- A byte: 8 bits (R7). -/
abbrev Byte := BitVec 8

/-- A word: 32 bits (R7); addition on it is the spec's `+32` (R8). -/
abbrev Word := BitVec 32

end Sys2Proof
end

