-- ==== Sys2Proof/Config.lean ====
section
/-! DEFINITION. What an implementation fixes (00_scope.md R5, R6), the literals of
93_implementation_defined.md U4 as named constants, and the free values: opaque constants with no body,
for what the spec gives no value. -/

namespace Sys2Proof

/-- A P-array and four S-boxes: 18 words and 4 x 256 words (R5, R20, R21). -/
structure Tables where
  p : Vector Word 18
  s : Vector (Vector Word 256) 4
deriving DecidableEq, Repr, Inhabited

/-- The two readings of the long-copy offset (R93, 92_eei_decisions.md D14). -/
inductive LongOffsetMode where
  | sext13     -- the spec's choice
  | orM8192    -- the alternative kept as a switch
deriving DecidableEq, Repr

/-- How the eight bytes of a schedule output become two table words (R114, D8). -/
inductive KsWords where
  | leInOrder   -- the spec's choice
  | beInOrder   -- D8's alternative: big-endian words
  | leSwapped   -- D8's alternative: second word first
deriving DecidableEq, Repr

/-- The order in which S-box entries are replaced (R115, D9). -/
inductive KsSboxOrder where
  | boxByBox      -- the spec's choice
  | interleaved   -- D9's alternative
deriving DecidableEq, Repr

/-- The three readings of the key schedule text (R6: KS_CHAIN, KS_WORDS, KS_SBOX_ORDER). -/
structure KsReading where
  chain : Bool
  words : KsWords
  order : KsSboxOrder
deriving DecidableEq, Repr

/-- The readings the spec decides for: D7, D8, D9. -/
def KsReading.decided : KsReading := { chain := true, words := .leInOrder, order := .boxByBox }

/-- The parameters of R6. `doutCap = none` is the unbounded output buffer R6 allows. -/
structure Params where
  init : Tables
  kbufCap : Nat
  cbufCap : Nat
  dinCap : Nat
  doutCap : Option Nat
  longOffset : LongOffsetMode
  ks : KsReading
deriving DecidableEq, Repr

/-- The largest capacity a 32-bit length register can name (R6, D29). -/
def Config.maxCap : Nat := 4294967295

/-- The bounds R6 sets on the capacities: KBUF_CAP at least 72, all at most 2^32 - 1. -/
def Params.wf (c : Params) : Prop :=
  72 ≤ c.kbufCap ∧ c.kbufCap ≤ Config.maxCap ∧ c.cbufCap ≤ Config.maxCap ∧ c.dinCap ≤ Config.maxCap ∧
    ∀ n, c.doutCap = some n → n ≤ Config.maxCap

namespace Config

/-! The literals of U4. -/

/-- Bytes of a cipher block. -/
abbrev blockBytes : Nat := 8
/-- Bytes of a key word. -/
abbrev keyWordBytes : Nat := 4
/-- P words, and so the most key words that are ever read (R20, R23). -/
abbrev pWords : Nat := 18
/-- `count + 2` of the short form. -/
abbrev shortSizeBase : Nat := 2
/-- `size += 2` of the long form. -/
abbrev longSizeBase : Nat := 2
/-- `n + 10` of the extended long form. -/
abbrev extSizeBase : Nat := 10
/-- `-0x100` of the short form, as the distance subtracted. -/
abbrev shortOffsetSpan : Int := 256
/-- Half of the range of a 13-bit field: where `sext13` turns negative (R10). -/
abbrev sext13Half : Nat := 4096
/-- The range of a 13-bit field (R10, R93). -/
abbrev sext13Span : Int := 8192

/-! The open parameters of this machine (R6): nothing in Lean can evaluate them. -/

/-- P_INIT and S_INIT (U3, D13). -/
opaque initTables : Tables
/-- KBUF_CAP before the bound of R6 is applied. -/
opaque kbufCapRaw : BitVec 32
/-- CBUF_CAP. -/
opaque cbufCapRaw : BitVec 32
/-- DIN_CAP. -/
opaque dinCapRaw : BitVec 32

/-- The parameters `State.reset` carries: tables and capacities open, DOUT unbounded (R6 allows it), the
switches as decided (D7 to D9, D14). DESIGN CHOICE, log 1. -/
def params : Params where
  init := initTables
  kbufCap := max 72 kbufCapRaw.toNat
  cbufCap := cbufCapRaw.toNat
  dinCap := dinCapRaw.toNat
  doutCap := none
  longOffset := .sext13
  ks := .decided

/-! Free values: the first argument is a unit's counter (log 8), the second tells the places apart. -/

/-- A free word (temporaries R22, R37; D_OLEN, D_IPOS R32, R207). -/
opaque freeWord : Nat → Nat → Word
/-- A free integer that is not negative (temporaries R23, R30; `opos` R207). -/
opaque freeNat : Nat → Nat → Nat
/-- A free signed integer (the temporary `offset`, R30). -/
opaque freeInt : Nat → Int
/-- A free run of words (the temporary `K`, R23). -/
opaque freeWords : Nat → List Word
/-- A free block (the temporary `D`, R23). -/
opaque freeBlock : Nat → Vector Byte 8
/-- A free byte (the temporary `n` of DCMP, R30). -/
opaque freeByte : Nat → Byte
/-- A free 16-bit field (the temporary `f`, R30). -/
opaque freeField : Nat → BitVec 16
/-- Free contents of DOUT, from address 0 on (R207). -/
opaque freeBytes : Nat → List Byte
/-- What a host read of a byte that nothing has written answers (R37, U6); the last argument is the address (log 14). -/
opaque unwrittenByte : Nat → Nat → Nat → Byte
/-- Free tables: P and S after a KEYLOAD fault (R207). -/
opaque freeTables : Nat → Tables
/-- What a 32-bit register shows of a position no 32-bit register can hold (log 9). -/
opaque widePosition : Nat → Word

end Config

end Sys2Proof
end

