-- ==== Sys2Proof/Syntax.lean ====
section
/-! DEFINITION. The instructions: one constructor per row of spec/opcode_table.json (R12, R101). -/

namespace Sys2Proof

/-- The four host commands (R80) and the five tokens of the compressed stream (R84 to R88). A command's
operand is its unit's length register, so it has no field here. -/
inductive Instr where
  | keyload                              -- KEYLOAD, C_CMD.OP = 1
  | encbuf                               -- ENCBUF, C_CMD.OP = 2
  | decbuf                               -- DECBUF, C_CMD.OP = 3
  | dstart                               -- DSTART, D_CMD.START = 1
  | lit (v : Byte)                       -- LIT, the literal v
  | scopy (a b : Bool) (o : Byte)        -- SCOPY, count bits a (high) and b (low), offset byte o
  | lcopy (q : BitVec 13) (sz : BitVec 3)  -- LCOPY, f = q:sz with sz not 0
  | lcopyx (q : BitVec 13) (n : Byte)    -- LCOPYX, f = q:000 with q not 0, extension byte n
  | endMark                              -- END, f = 0
deriving DecidableEq, Repr

end Sys2Proof
end

