-- ==== Sys2Proof/WellFormed.lean ====
section
/-! DEFINITION. Which instructions an encoding can stand for (30_encoding.md R88). -/

namespace Sys2Proof

/-- R88: an LCOPY has a size code that is not 0; an LCOPYX has size code 0 and a field that is not 0, so
its offset field is not 0. Every other instruction is well formed at every operand. -/
def Instr.wf : Instr → Bool
  | .keyload => true
  | .encbuf => true
  | .decbuf => true
  | .dstart => true
  | .lit _ => true
  | .scopy _ _ _ => true
  | .lcopy _ sz => sz != 0
  | .lcopyx q _ => q != 0
  | .endMark => true

end Sys2Proof
end

