-- ==== Sys2Proof/Decode.lean ====
section
/-! DEFINITION. Decoding of host commands (R80, R81) and of the compressed stream (R61 to R63, R82 to R88),
and after it the encoder (R80, R85 to R88, R100). -/

namespace Sys2Proof

/-! ## Host commands -/

/-- A write to C_CMD (R80): OP in bits 2..0, bits 31..3 zero; `none` is an illegal command (R81). -/
def decodeCCmd (w : Word) : Option Instr :=
  if w.extractLsb' 3 29 = 0 then
    if w.extractLsb' 0 3 = 1 then some .keyload
    else if w.extractLsb' 0 3 = 2 then some .encbuf
    else if w.extractLsb' 0 3 = 3 then some .decbuf
    else none
  else none

/-- A write to D_CMD (R80): START in bit 0, bits 31..1 zero; `none` is an illegal command (R81). -/
def decodeDCmd (w : Word) : Option Instr :=
  if w.extractLsb' 1 31 = 0 then
    if w.extractLsb' 0 1 = 1 then some .dstart else none
  else none

/-! ## Reading the stream -/

/-- DCMP's program counter (R33): the next byte of DIN, the cached control bits not yet delivered (bit 0
next, R28) and their number. -/
structure Cursor where
  ipos : Nat
  bitbuf : Byte
  bitcnt : Nat
deriving DecidableEq, Repr

/-- A compressed stream as the fetch sees it: its length in bytes, and its bytes (`none`: no value, R37). -/
structure Stream where
  len : Nat
  byteAt : Nat → Option Byte

/-- The stream made of the bytes of a list. -/
def Stream.ofList (bs : List Byte) : Stream := { len := bs.length, byteAt := fun i => bs[i]? }

/-- Why a read stops: the stream ran out (InputExhausted, R61 to R63), or the byte at address `a` has no
value (R37). -/
inductive ReadStop where
  | exhausted
  | noValue (a : Nat)
deriving DecidableEq, Repr

/-- The answer of a read: a value and the cursor after it, or why it stopped and the cursor it left. -/
inductive Read (α : Type) where
  | ok (x : α) (c : Cursor)
  | stop (r : ReadStop) (c : Cursor)
deriving DecidableEq, Repr

/-- One read after another; the first that stops ends both. -/
def Read.andThen {α β : Type} (r : Read α) (k : α → Cursor → Read β) : Read β :=
  match r with
  | .ok x c => k x c
  | .stop e c => .stop e c

/-- LE16 (R9). -/
def le16 (b0 b1 : Byte) : BitVec 16 := b1 ++ b0

/-- GetByte (R62): the cached control bits are not touched. -/
def getByte (st : Stream) (c : Cursor) : Read Byte :=
  if st.len ≤ c.ipos then .stop .exhausted c
  else
    match st.byteAt c.ipos with
    | none => .stop (.noValue c.ipos) c
    | some v => .ok v { c with ipos := c.ipos + 1 }

/-- Delivers the next cached control bit (R61, its last three lines). -/
def takeBit (c : Cursor) : Read Bool :=
  .ok (c.bitbuf.getLsbD 0) { c with bitbuf := c.bitbuf >>> 1, bitcnt := c.bitcnt - 1 }

/-- GetBit (R61): a new control byte is taken only when a bit is asked for and none is cached. -/
def getBit (st : Stream) (c : Cursor) : Read Bool :=
  if c.bitcnt = 0 then
    (getByte st c).andThen fun v c' => takeBit { c' with bitbuf := v, bitcnt := 8 }
  else takeBit c

/-- GetU16LE (R63): with fewer than two bytes left nothing is consumed. -/
def getU16 (st : Stream) (c : Cursor) : Read (BitVec 16) :=
  if st.len < c.ipos + 2 then .stop .exhausted c
  else
    match st.byteAt c.ipos, st.byteAt (c.ipos + 1) with
    | some b0, some b1 => .ok (le16 b0 b1) { c with ipos := c.ipos + 2 }
    | none, _ => .stop (.noValue c.ipos) c
    | some _, none => .stop (.noValue (c.ipos + 1)) c

/-! ## Tokens -/

/-- The rest of a T_SHORT token after its control bits 0, 0 (R86): two count bits, then the offset byte. -/
def decodeShort (st : Stream) (c : Cursor) : Read Instr :=
  (getBit st c).andThen fun a c1 =>
    (getBit st c1).andThen fun b c2 =>
      (getByte st c2).andThen fun o c3 => .ok (.scopy a b o) c3

/-- The rest of a T_LONG token after its control bits 0, 1 (R87, R88): the field f, and the extension byte
where f is not 0 and its size code is. -/
def decodeLong (st : Stream) (c : Cursor) : Read Instr :=
  (getU16 st c).andThen fun f c1 =>
    if f = 0 then .ok .endMark c1
    else if f.extractLsb' 0 3 = 0 then
      (getByte st c1).andThen fun n c2 => .ok (.lcopyx (f.extractLsb' 3 13) n) c2
    else .ok (.lcopy (f.extractLsb' 3 13) (f.extractLsb' 0 3)) c1

/-- One token of the stream (R84, and the fetching half of the loop R161). Every operand is read here, in
the order the token's rule reads it. -/
def decodeToken (st : Stream) (c : Cursor) : Read Instr :=
  (getBit st c).andThen fun c0 d =>
    if c0 then (getByte st d).andThen fun v d1 => .ok (.lit v) d1
    else (getBit st d).andThen fun c1 d1 => if c1 then decodeLong st d1 else decodeShort st d1

/-- The cursor at the start of a run (R160). -/
def Cursor.start : Cursor := { ipos := 0, bitbuf := 0, bitcnt := 0 }

/-- The first token of a byte string, with the cursor after it. -/
def decodeBytes (bs : List Byte) : Read Instr := decodeToken (.ofList bs) .start

/-- The tokens from a cursor on, at most `fuel` of them, up to and including END; `none` if the stream runs
out first. -/
def decodeTokens (st : Stream) : Nat → Cursor → Option (List Instr)
  | 0, _ => none
  | fuel + 1, c =>
    match decodeToken st c with
    | .stop _ _ => none
    | .ok .endMark _ => some [.endMark]
    | .ok i c' => (decodeTokens st fuel c').map (i :: ·)

/-! ## The opcode table's words -/

/-- The bytes of a number, the least significant first: at least `n` of them. -/
def tableBytes (n w : Nat) : List Byte := (List.range n).map fun k => BitVec.ofNat 8 (w / 256 ^ k)

/-- How many stream bytes a table word of `nbits` bits stands for: the longest token has a control byte and
three data bytes (R98), and bits the table gives no place are 0. -/
def tableByteCount (nbits : Nat) : Nat := max 4 ((nbits + 7) / 8)

/-- The instruction this decoder reads from a table word: a row of 32 bits is a write to C_CMD (the rows of
KEYLOAD and DSTART have the same 32 bits, log 12), every other row the first bytes of a stream. -/
def decodeTableWord (nbits w : Nat) : Option Instr :=
  if nbits = 32 then decodeCCmd (BitVec.ofNat 32 w)
  else
    match decodeBytes (tableBytes (tableByteCount nbits) w) with
    | .ok i _ => some i
    | .stop _ _ => none

/-! ## Lengths and the encoder -/

/-- How many control bits a token reads (R98); a host command is no token. -/
def Instr.ctrlBits : Instr → Nat
  | .keyload => 0
  | .encbuf => 0
  | .decbuf => 0
  | .dstart => 0
  | .lit _ => 1
  | .scopy _ _ _ => 4
  | .lcopy _ _ => 2
  | .lcopyx _ _ => 2
  | .endMark => 2

/-- How many data bytes a token reads (R98). -/
def Instr.dataBytes : Instr → Nat
  | .keyload => 0
  | .encbuf => 0
  | .decbuf => 0
  | .dstart => 0
  | .lit _ => 1
  | .scopy _ _ _ => 1
  | .lcopy _ _ => 2
  | .lcopyx _ _ => 3
  | .endMark => 2

/-- The encoding of one instruction: the value a host writes to a command register (R80), or a token's
control bits in the order read and its data bytes (R85 to R88). -/
inductive Encoding where
  | cCmd (w : Word)
  | dCmd (w : Word)
  | token (ctrl : List Bool) (data : List Byte)
deriving DecidableEq, Repr

/-- The 16-bit field of a long token (R87, R99). -/
def longField (q : BitVec 13) (sz : BitVec 3) : BitVec 16 := q ++ sz

/-- The two data bytes of a long token's field, low byte first (R87). -/
def fieldBytes (f : BitVec 16) : List Byte := [f.extractLsb' 0 8, f.extractLsb' 8 8]

/-- The encoding of an instruction (R80, R85 to R88). -/
def encode : Instr → Encoding
  | .keyload => .cCmd 1
  | .encbuf => .cCmd 2
  | .decbuf => .cCmd 3
  | .dstart => .dCmd 1
  | .lit v => .token [true] [v]
  | .scopy a b o => .token [false, false, a, b] [o]
  | .lcopy q sz => .token [false, true] (fieldBytes (longField q sz))
  | .lcopyx q n => .token [false, true] (fieldBytes (longField q 0) ++ [n])
  | .endMark => .token [false, true] [0, 0]

/-- The packer's state (R100): the bytes so far, the control byte being filled, and how many of its bits
are used. -/
structure Packer where
  out : List Byte
  cidx : Option Nat
  nbits : Nat
deriving DecidableEq, Repr

/-- Sets a control bit of the byte being filled (R100). -/
def Packer.setBit (p : Packer) (i : Nat) (b : Bool) : Packer :=
  { out := p.out.modify i (· ||| (BitVec.ofNat 8 b.toNat <<< p.nbits)), cidx := some i, nbits := p.nbits + 1 }

/-- PutBit (R100): a new control byte is appended when there is none or the last is full. -/
def Packer.putBit (p : Packer) (b : Bool) : Packer :=
  match p.cidx with
  | some i =>
    if p.nbits = 8 then Packer.setBit { p with out := p.out ++ [0], nbits := 0 } p.out.length b
    else p.setBit i b
  | none => Packer.setBit { p with out := p.out ++ [0], nbits := 0 } p.out.length b

/-- PutByte (R100). -/
def Packer.putByte (p : Packer) (v : Byte) : Packer := { p with out := p.out ++ [v] }

/-- One instruction's control bits, then its data bytes (R100); a host command is no part of a stream. -/
def Packer.put (p : Packer) (i : Instr) : Packer :=
  match encode i with
  | .token ctrl data => data.foldl Packer.putByte (ctrl.foldl Packer.putBit p)
  | .cCmd _ => p
  | .dCmd _ => p

/-- Nothing packed yet. -/
def Packer.empty : Packer := { out := [], cidx := none, nbits := 0 }

/-- A token program as the bytes of a stream (R100). -/
def pack (ts : List Instr) : List Byte := (ts.foldl Packer.put .empty).out

/-- What the decoder reads back from an encoding: the command of a register write, or the first token of
the stream packed from the control bits and data bytes. -/
def decodeEncoding : Encoding → Option Instr
  | .cCmd w => decodeCCmd w
  | .dCmd w => decodeDCmd w
  | .token ctrl data =>
    match decodeBytes (data.foldl Packer.putByte (ctrl.foldl Packer.putBit .empty)).out with
    | .ok i _ => some i
    | .stop _ _ => none

end Sys2Proof
end

