-- ==== Sys2Proof/Machine/State.lean ====
section
/-! DEFINITION. The machine's state as plain data (10_state.md, 20_memory.md section 1), the reasons a step
can stop, and the state after reset (R37, R230). -/

namespace Sys2Proof.Machine

/-- The two units (R1). -/
inductive UnitId where
  | ciph
  | dcmp
deriving DecidableEq, Repr

/-- The four buffer spaces (R50). -/
inductive Space where
  | kbuf
  | cbuf
  | din
  | dout
deriving DecidableEq, Repr

/-- The causes of unit CIPH (R201). -/
inductive CCause where
  | illegalCommand
  | lengthExceedsBuffer
  | keyTooShort
  | notKeyed
deriving DecidableEq, Repr

/-- The causes of unit DCMP (R202). -/
inductive DCause where
  | illegalCommand
  | lengthExceedsBuffer
  | inputExhausted
  | nonNegativeOffset
  | windowUnderflow
  | outputOverflow
deriving DecidableEq, Repr

/-- The model's own faults. The hardware's faults (R200) are not among them: they are next states. -/
inductive Fault where
  /-- Raised by KEYLOAD, ENCBUF or DECBUF, by the token fetch, or by a copy, that would read a byte nothing has written:
  R37 says that a model must not let any command read it, and D24 that nothing may be read before it is written (log 2).
  Safe: the hardware would go on with an unspecified byte. -/
  | noValue (sp : Space) (a : Nat)
  /-- Raised by a host access at or past a buffer's capacity: no such address (R50, R51). Safe. -/
  | noSuchAddress (sp : Space) (a : Nat)
  /-- Raised by a host access to a register number R31, R32 do not list. Safe. -/
  | noSuchRegister (u : UnitId) (no : Nat)
deriving DecidableEq, Repr

/-- The refusals. -/
inductive Refusal where
  /-- Raised by exec's arm of an instruction that has no meaning yet. Safe. -/
  | notModelled (mnemonic : String)
  /-- Raised by a command, a write of a command or length register, a read of a length register or a buffer access
  that meets a busy unit: R70, R239 give it no meaning and U7 has the model refuse it (log 13 for the read). Safe. -/
  | busyAccess (u : UnitId)
  /-- Raised by a host access in a direction R31, R32, R50 do not give the host (log 10). Safe. -/
  | noHostPath
deriving DecidableEq, Repr

/-- A buffer's written bytes, addresses strictly rising. An address that is not listed has no value (log 2). -/
abbrev Memory := List Host.Cell

/-- The status bits of a unit (R31, R32, R206), but KEYED. -/
structure Status where
  busy : Bool
  done : Bool
  fault : Bool
  cause : BitVec 4
deriving DecidableEq, Repr

/-- An 8-byte block (R5, R131). -/
abbrev Block := Vector Byte 8

/-- CIPH's temporaries (R22, R23). They hold no value between commands. -/
structure CiphTemps where
  l : Word
  r : Word
  n : Nat
  k : List Word
  d : Block
deriving DecidableEq, Repr

/-- Unit CIPH (R20 to R24, R31, R50). -/
structure Ciph where
  tab : Tables         -- P and S
  keyed : Bool
  temps : CiphTemps
  status : Status
  cLen : Word
  kbuf : Memory
  cbuf : Memory
  free : Nat           -- the model's own: where the next free values are drawn (log 8)
deriving DecidableEq, Repr

/-- DCMP's token temporaries (R30). They hold no value between tokens. -/
structure DcmpTemps where
  f : BitVec 16
  size : Nat
  offset : Int
  count : Nat
  n : Byte
deriving DecidableEq, Repr

/-- Unit DCMP (R26 to R30, R32, R50). `cur` is the program counter: ipos, bitbuf, bitcnt (R33). -/
structure Dcmp where
  cur : Cursor
  ilen : Nat
  opos : Nat
  temps : DcmpTemps
  status : Status
  dIlen : Word
  dOlen : Word
  dIpos : Word
  din : Memory
  dout : Memory
  free : Nat           -- the model's own: where the next free values are drawn (log 8)
deriving DecidableEq, Repr

/-- What the host can do to the hardware (R31, R32, R50, R80, R230, R231). -/
inductive HostAct where
  | writeReg (u : UnitId) (no : Nat) (v : Word)
  | readReg (u : UnitId) (no : Nat)
  | writeByte (sp : Space) (a : Nat) (v : Byte)
  | readByte (sp : Space) (a : Nat)
  | reset
deriving DecidableEq, Repr

/-- A host action still to come, and how many steps pass before it (log 3). -/
structure Pending where
  delay : Nat
  act : HostAct
deriving DecidableEq, Repr

/-- What a host read returned. -/
inductive HostDatum where
  | nothing
  | word (w : Word)
  | byte (b : Byte)
deriving DecidableEq, Repr

/-- The machine: the parameters (R6), the two units (R1), and the model's own fields for the host (log 3). -/
structure State where
  cfg : Params
  ciph : Ciph
  dcmp : Dcmp
  hostq : List Pending
  hostIn : HostDatum
deriving DecidableEq, Repr

/-- An idle status: every bit 0 (R37). -/
def Status.idle : Status := { busy := false, done := false, fault := false, cause := 0 }

/-- CIPH after reset (R37); P, S and the temporaries, which have no value there, hold zeros (log 5). -/
def Ciph.reset : Ciph where
  tab := { p := Vector.replicate 18 0, s := Vector.replicate 4 (Vector.replicate 256 0) }
  keyed := false
  temps := { l := 0, r := 0, n := 0, k := [], d := Vector.replicate 8 0 }
  status := .idle
  cLen := 0
  kbuf := []
  cbuf := []
  free := 0

/-- DCMP after reset (R37); bitbuf and the temporaries, which have no value there, hold zeros (log 5). -/
def Dcmp.reset : Dcmp where
  cur := { ipos := 0, bitbuf := 0, bitcnt := 0 }
  ilen := 0
  opos := 0
  temps := { f := 0, size := 0, offset := 0, count := 0, n := 0 }
  status := .idle
  dIlen := 0
  dOlen := 0
  dIpos := 0
  din := []
  dout := []
  free := 0

/-- The machine right after reset (R37, R230). -/
def State.reset : State where
  cfg := Config.params
  ciph := .reset
  dcmp := .reset
  hostq := []
  hostIn := .nothing

end Sys2Proof.Machine
end

