-- ==== Sys2Proof/Machine/Flags.lean ====
section
/-! DEFINITION. The status flags: what command start and command end write (R206), the cause codes (R201,
R202) and the status words a host reads (R31, R32). There are no condition codes (R34). -/

namespace Sys2Proof.Machine

/-- The cause codes of CIPH (R201). -/
def CCause.code : CCause → BitVec 4
  | .illegalCommand => 1
  | .lengthExceedsBuffer => 2
  | .keyTooShort => 3
  | .notKeyed => 4

/-- The cause codes of DCMP (R202). -/
def DCause.code : DCause → BitVec 4
  | .illegalCommand => 1
  | .lengthExceedsBuffer => 2
  | .inputExhausted => 3
  | .nonNegativeOffset => 4
  | .windowUnderflow => 5
  | .outputOverflow => 6

/-- What every accepted write to a command register does first (R206): this is also all there is of a return
from a fault (R208). -/
def Status.accept (st : Status) : Status := { st with done := false, fault := false, cause := 0 }

/-- A legal command starts (R206). -/
def Status.start (st : Status) : Status := { st.accept with busy := true }

/-- A command ends successfully (R206, `halt`). -/
def Status.halt (st : Status) : Status := { st with busy := false, done := true }

/-- The status word (R31, R32): BUSY, KEYED (DCMP: 0), DONE, FAULT, CAUSE from bit 0 up; bits 31..8 are 0. -/
def statusWord (st : Status) (keyed : Bool) : Word :=
  BitVec.ofNat 32 (st.busy.toNat + 2 * keyed.toNat + 4 * st.done.toNat + 8 * st.fault.toNat + 16 * st.cause.toNat)

/-- C_STATUS as a host reads it (R31). -/
def cStatus (c : Ciph) : Word := statusWord c.status c.keyed

/-- D_STATUS as a host reads it (R32). -/
def dStatus (d : Dcmp) : Word := statusWord d.status false

end Sys2Proof.Machine
end

