-- ==== Sys2Proof/Machine/Operands.lean ====
section
/-! DEFINITION. Operand assembly: byte-order helpers (R9), sign handling (R10), sizes and offsets of the copy
tokens (R89 to R93), the byte of a word that F indexes with (R130). -/

namespace Sys2Proof.Machine

/-- LE32 (R9). -/
def le32 (b0 b1 b2 b3 : Byte) : Word := b3 ++ b2 ++ b1 ++ b0

/-- BE32 (R9). -/
def be32 (b0 b1 b2 b3 : Byte) : Word := b0 ++ b1 ++ b2 ++ b3

/-- `byte_k(x) = x[8k+7:8k]` (R130), and the k-th byte of LE32bytes (R9). -/
def byteOf (k : Nat) (x : Word) : Byte := x.extractLsb' (8 * k) 8

/-- sext13 (R10). -/
def sext13 (q : BitVec 13) : Int :=
  if q.toNat < Config.sext13Half then (q.toNat : Int) else (q.toNat : Int) - Config.sext13Span

/-- The long-copy offset under each reading (R93, D14). -/
def longOffset (mode : LongOffsetMode) (q : BitVec 13) : Int :=
  match mode with
  | .sext13 => sext13 q
  | .orM8192 => (q.toNat : Int) - Config.sext13Span

/-- SCOPY's count (R89): the first bit read is the more significant. -/
def shortCount (a b : Bool) : Nat := 2 * a.toNat + b.toNat

/-- SCOPY's size (R89). -/
def shortSize (a b : Bool) : Nat := shortCount a b + Config.shortSizeBase

/-- SCOPY's offset (R90). -/
def shortOffset (o : Byte) : Int := (o.toNat : Int) - Config.shortOffsetSpan

/-- LCOPY's size (R91). -/
def longSize (sz : BitVec 3) : Nat := sz.toNat + Config.longSizeBase

/-- LCOPYX's size (R92). -/
def extSize (n : Byte) : Nat := n.toNat + Config.extSizeBase

end Sys2Proof.Machine
end

