-- ==== Sys2Proof/Machine/Ops.lean ====
section
/-! DEFINITION. The named operations over memory and registers: byte and block access (R52, R53, R66), the
window (R64, R65), the register view of a position, command start and end, and taking a fault (R200, R206,
R207), the one shared form of which is `Status.raise`. -/

namespace Sys2Proof.Machine

/-- What a meaning answers. -/
abbrev Out := Host.Outcome State Fault Refusal

/-! ## Buffers -/

/-- The byte at an address; `none` where nothing has written one (R37, log 2). -/
def Memory.read : Memory → Nat → Option Byte
  | [], _ => none
  | (k, v) :: m, a => if a = k then some v else Memory.read m a

/-- Writes one byte, keeping the addresses strictly rising. -/
def Memory.write : Memory → Nat → Byte → Memory
  | [], a, v => [(a, v)]
  | (k, w) :: m, a, v =>
    if a < k then (a, v) :: (k, w) :: m
    else if a = k then (a, v) :: m
    else (k, w) :: Memory.write m a v

/-- The canonical form: addresses strictly rising. An unlisted address has no value, so no entry can equal
what one reads as. -/
abbrev Memory.wf (m : Memory) : Prop := m.Pairwise fun x y => x.1 < y.1

/-- Every listed address lies below a capacity (R51). -/
def Memory.below (m : Memory) (cap : Nat) : Prop := ∀ x ∈ m, x.1 < cap

/-- Bytes at consecutive addresses from `a` on, and nothing else. -/
def Memory.ofBytes : Nat → List Byte → Memory
  | _, [] => []
  | a, b :: bs => (a, b) :: Memory.ofBytes (a + 1) bs

/-- A byte a command needs: its value, or the address that has none. -/
def Memory.need (m : Memory) (a : Nat) : Except Nat Byte :=
  match Memory.read m a with
  | some v => .ok v
  | none => .error a

/-- Key word j (R52): four bytes, big-endian. -/
def keyWord (m : Memory) (j : Nat) : Except Nat Word := do
  let b0 ← Memory.need m (4 * j)
  let b1 ← Memory.need m (4 * j + 1)
  let b2 ← Memory.need m (4 * j + 2)
  let b3 ← Memory.need m (4 * j + 3)
  pure (be32 b0 b1 b2 b3)

/-- `count` key words from word j on (R111). -/
def keyWords (m : Memory) (j : Nat) : Nat → Except Nat (List Word)
  | 0 => pure []
  | count + 1 => do
    let w ← keyWord m j
    let ws ← keyWords m (j + 1) count
    pure (w :: ws)

/-- The eight bytes of the block at byte offset `a` (R58). -/
def readBlock (m : Memory) (a : Nat) : Except Nat Block := do
  let b0 ← Memory.need m a
  let b1 ← Memory.need m (a + 1)
  let b2 ← Memory.need m (a + 2)
  let b3 ← Memory.need m (a + 3)
  let b4 ← Memory.need m (a + 4)
  let b5 ← Memory.need m (a + 5)
  let b6 ← Memory.need m (a + 6)
  let b7 ← Memory.need m (a + 7)
  pure #v[b0, b1, b2, b3, b4, b5, b6, b7]

/-- Writes bytes at consecutive addresses from `a` on. -/
def Memory.writeAll (m : Memory) (a : Nat) : List Byte → Memory
  | [] => m
  | b :: bs => Memory.writeAll (Memory.write m a b) (a + 1) bs

/-- Writes the eight bytes of a block at byte offset `a` (R58). -/
def writeBlock (m : Memory) (a : Nat) (b : Block) : Memory := Memory.writeAll m a b.toList

/-! ## Blocks and halves (R53, R66) -/

/-- The two halves of a block, L and R (R22). -/
structure Halves where
  l : Word
  r : Word
deriving DecidableEq, Repr

/-- LoadBlock: both halves little-endian (R53). -/
def loadBlock (b : Block) : Halves := { l := le32 b[0] b[1] b[2] b[3], r := le32 b[4] b[5] b[6] b[7] }

/-- StoreBlock: little-endian, R then L (R53). -/
def storeBlock (h : Halves) : Block :=
  #v[byteOf 0 h.r, byteOf 1 h.r, byteOf 2 h.r, byteOf 3 h.r, byteOf 0 h.l, byteOf 1 h.l, byteOf 2 h.l, byteOf 3 h.l]

/-! ## The window (R29, R64, R65) -/

/-- The output write position and the output buffer. -/
structure Win where
  opos : Nat
  dout : Memory
deriving DecidableEq, Repr

/-- The answer of a window operation: a value, a DCMP fault, or an address of DOUT that has no value. -/
inductive WinOut (α : Type) where
  | ok (x : α)
  | raise (c : DCause)
  | noValue (a : Nat)
deriving DecidableEq, Repr

/-- One window operation after another; the first that does not succeed ends both. -/
def WinOut.andThen {α β : Type} (r : WinOut α) (k : α → WinOut β) : WinOut β :=
  match r with
  | .ok x => k x
  | .raise c => .raise c
  | .noValue a => .noValue a

/-- Is there room for a byte at the write position (R65)? An absent capacity is unbounded (R6). -/
def hasRoom (cap : Option Nat) (opos : Nat) : Bool :=
  match cap with
  | none => true
  | some c => decide (opos < c)

/-- WinRead (R64). -/
def winRead (w : Win) (offset : Int) : WinOut Byte :=
  if (w.opos : Int) + offset < 0 then .raise .windowUnderflow
  else
    match Memory.read w.dout ((w.opos : Int) + offset).toNat with
    | some v => .ok v
    | none => .noValue ((w.opos : Int) + offset).toNat

/-- Append (R65). -/
def append (cap : Option Nat) (w : Win) (v : Byte) : WinOut Win :=
  if hasRoom cap w.opos then .ok { opos := w.opos + 1, dout := Memory.write w.dout w.opos v }
  else .raise .outputOverflow

/-! ## Registers -/

/-- A position in a 32-bit register (R32, D29); one that does not fit, which only an unbounded DOUT allows,
is shown as a free value (log 9). -/
def position32 (n : Nat) : Word := if n < 2 ^ 32 then BitVec.ofNat 32 n else Config.widePosition n

/-- The window of DCMP (R29). -/
def State.win (s : State) : Win := { opos := s.dcmp.opos, dout := s.dcmp.dout }

/-- Writes the window back. -/
def State.setWin (s : State) (w : Win) : State :=
  { s with dcmp := { s.dcmp with opos := w.opos, dout := w.dout } }

/-- Moves DCMP's program counter (R33). -/
def State.setCursor (s : State) (c : Cursor) : State := { s with dcmp := { s.dcmp with cur := c } }

/-! ## Command start and end -/

/-- L and R once a CIPH command has ended: no value (R22), so free values (log 6). -/
def freeHalves (e : Nat) (x : CiphTemps) : CiphTemps := { x with l := Config.freeWord e 0, r := Config.freeWord e 1 }

/-- All of CIPH's temporaries once a KEYLOAD has ended: no value (R22, R23), so free values (log 6). -/
def freeCiphTemps (e : Nat) : CiphTemps :=
  { l := Config.freeWord e 0, r := Config.freeWord e 1, n := Config.freeNat e 0, k := Config.freeWords e,
    d := Config.freeBlock e }

/-- DCMP's temporaries once a token has ended: no value (R30), so free values (log 6). -/
def freeDcmpTemps (e : Nat) : DcmpTemps :=
  { f := Config.freeField e, size := Config.freeNat e 1, offset := Config.freeInt e, count := Config.freeNat e 2,
    n := Config.freeByte e }

/-- A legal CIPH command is accepted (R206). -/
def startC (s : State) : State := { s with ciph := { s.ciph with status := s.ciph.status.start } }

/-- A CIPH command ends successfully (R206); L and R hold no value any more (R22). -/
def haltC (s : State) : State :=
  { s with ciph := { s.ciph with
      status := s.ciph.status.halt
      temps := freeHalves s.ciph.free s.ciph.temps
      free := s.ciph.free + 1 } }

/-- A legal DCMP command is accepted (R206). D_OLEN and D_IPOS hold no value a host may rely on while DONE is
not 1 (R32), so they become free values here (log 7). -/
def startD (s : State) : State :=
  { s with dcmp := { s.dcmp with
      status := s.dcmp.status.start
      dOlen := Config.freeWord s.dcmp.free 2
      dIpos := Config.freeWord s.dcmp.free 3
      free := s.dcmp.free + 1 } }

/-- A token ends and the run goes on (R161): its temporaries hold no value any more (R30). -/
def endToken (s : State) : State :=
  { s with dcmp := { s.dcmp with temps := freeDcmpTemps s.dcmp.free, free := s.dcmp.free + 1 } }

/-- A run ends successfully (R206). -/
def haltD (s : State) : State := { s with dcmp := { s.dcmp with status := s.dcmp.status.halt } }

/-! ## Taking a fault (R200, R206, R207) -/

/-- The one shared form of taking a fault (R206, `raise`): BUSY falls, FAULT and CAUSE are set. Nothing is
saved and control goes nowhere; the only way back is the next command's `Status.accept` (R208). -/
def Status.raise (st : Status) (code : BitVec 4) : Status := { st with busy := false, fault := true, cause := code }

/-- A CIPH command raises a fault (R201, R206). CBUF, KEYED and the tables stay (R207). -/
def raiseC (c : CCause) (s : State) : State :=
  { s with ciph := { s.ciph with
      status := s.ciph.status.raise c.code
      temps := freeHalves s.ciph.free s.ciph.temps
      free := s.ciph.free + 1 } }

/-- KEYLOAD raises a fault: besides, P and S hold no value any more (R207), so free values (log 7), and no temporary
does (R23). -/
def raiseKeyload (c : CCause) (s : State) : State :=
  raiseC c { s with ciph := { s.ciph with tab := Config.freeTables s.ciph.free, temps := freeCiphTemps s.ciph.free } }

/-- A free write position, kept within the bound of R29. -/
def freeOpos (cap : Option Nat) (e : Nat) : Nat :=
  match cap with
  | none => Config.freeNat e 3
  | some c => min (Config.freeNat e 3) c

/-- Free contents of DOUT, kept within its capacity (R51). -/
def freeDout (cap : Option Nat) (e : Nat) : Memory :=
  match cap with
  | none => Memory.ofBytes 0 (Config.freeBytes e)
  | some c => Memory.ofBytes 0 ((Config.freeBytes e).take c)

/-- A DCMP command raises a fault (R202, R206). DOUT, opos, D_OLEN and D_IPOS are unspecified after it (R207),
so free values (log 7). DIN and D_ILEN stay. -/
def raiseD (c : DCause) (s : State) : State :=
  { s with dcmp := { s.dcmp with
      status := s.dcmp.status.raise c.code
      temps := freeDcmpTemps s.dcmp.free
      opos := freeOpos s.cfg.doutCap s.dcmp.free
      dout := freeDout s.cfg.doutCap s.dcmp.free
      dOlen := Config.freeWord s.dcmp.free 2
      dIpos := Config.freeWord s.dcmp.free 3
      free := s.dcmp.free + 1 } }

/-- An illegal command in C_CMD: the status flags and nothing else (R81, R206, R207). -/
def illegalC (s : State) : State :=
  { s with ciph := { s.ciph with status := s.ciph.status.accept.raise CCause.illegalCommand.code } }

/-- An illegal command in D_CMD: the status flags and nothing else (R81, R206, R207). -/
def illegalD (s : State) : State :=
  { s with dcmp := { s.dcmp with status := s.dcmp.status.accept.raise DCause.illegalCommand.code } }

/-- The end of a token's window operations: the window is written back and the token ends; or its fault is
taken; or the model stops at a byte of DOUT without value. -/
def finishToken (s : State) (r : WinOut Win) : Out :=
  match r with
  | .ok w => .next (endToken (s.setWin w))
  | .raise c => .next (raiseD c s)
  | .noValue a => .fault (.noValue .dout a)

end Sys2Proof.Machine
end

