-- ==== Sys2Proof/Machine/Cipher.lean ====
section
/-! DEFINITION. Unit CIPH: the round function and the block transforms (41_cipher_block.md), the key schedule
(40_cipher_key_schedule.md), and the meanings of KEYLOAD, ENCBUF, DECBUF. -/

namespace Sys2Proof.Machine

/-! ## Round function and block transforms -/

/-- An entry of an S-box (R21). -/
def sbox (t : Tables) (b : Fin 4) (x : Byte) : Word := (t.s.get b).get x.toFin

/-- F (R130): add, exclusive or, add, with the bracketing of R139. -/
def roundF (t : Tables) (x : Word) : Word :=
  ((sbox t 0 (byteOf 3 x) + sbox t 1 (byteOf 2 x)) ^^^ sbox t 2 (byteOf 1 x)) + sbox t 3 (byteOf 0 x)

/-- One loop iteration of R131 and R132: L takes P[i], R takes F(L) and then P[j], L takes F(R). -/
def stage (t : Tables) (h : Halves) (ij : Fin 18 × Fin 18) : Halves :=
  let l1 := h.l ^^^ t.p.get ij.1
  let r1 := h.r ^^^ roundF t l1 ^^^ t.p.get ij.2
  { l := l1 ^^^ roundF t r1, r := r1 }

/-- The final XORs of R131 and R132. -/
def whiten (t : Tables) (i j : Fin 18) (h : Halves) : Halves := { l := h.l ^^^ t.p.get i, r := h.r ^^^ t.p.get j }

/-- The P indices of EncBlock's eight iterations (R131). -/
def encPairs : List (Fin 18 × Fin 18) :=
  [(0, 1), (2, 3), (4, 5), (6, 7), (8, 9), (10, 11), (12, 13), (14, 15)]

/-- The P indices of DecBlock's eight iterations (R132, 90_conflicts.md C1: eight, not nine). -/
def decPairs : List (Fin 18 × Fin 18) :=
  [(17, 16), (15, 14), (13, 12), (11, 10), (9, 8), (7, 6), (5, 4), (3, 2)]

/-- EncBlock on halves (R131). -/
def encHalves (t : Tables) (h : Halves) : Halves := whiten t 16 17 (encPairs.foldl (stage t) h)

/-- DecBlock on halves (R132). -/
def decHalves (t : Tables) (h : Halves) : Halves := whiten t 1 0 (decPairs.foldl (stage t) h)

/-- EncBlock (R131). -/
def encBlock (t : Tables) (b : Block) : Block := storeBlock (encHalves t (loadBlock b))

/-- DecBlock (R132). -/
def decBlock (t : Tables) (b : Block) : Block := storeBlock (decHalves t (loadBlock b))

/-! ## Key schedule -/

/-- Step 3 (R113): P[i] takes K[i mod n]. -/
def mixKey (t : Tables) (k : List Word) : Tables :=
  { t with p := Vector.ofFn fun i : Fin 18 => t.p.get i ^^^ k.getD (i.val % k.length) 0 }

/-- Where a schedule output goes: two P words or two entries of an S-box (R114, R115). -/
inductive Slot where
  | p (i : Fin 9)                    -- P[2i], P[2i+1]
  | s (b : Fin 4) (k : Fin 128)      -- S[b][2k], S[b][2k+1]
deriving DecidableEq, Repr

/-- The two words of a schedule output (R114 (b), D8). -/
def outputWords (r : KsWords) (d : Block) : Word × Word :=
  match r with
  | .leInOrder => (le32 d[0] d[1] d[2] d[3], le32 d[4] d[5] d[6] d[7])
  | .beInOrder => (be32 d[0] d[1] d[2] d[3], be32 d[4] d[5] d[6] d[7])
  | .leSwapped => (le32 d[4] d[5] d[6] d[7], le32 d[0] d[1] d[2] d[3])

/-- Overwrites the two entries of a slot (R114 (c), R115). -/
def Slot.fill (t : Tables) (w : Word × Word) : Slot → Tables
  | .p i => { t with p := (t.p.set (2 * i.val) w.1).set (2 * i.val + 1) w.2 }
  | .s b k => { t with s := t.s.set b.val (((t.s.get b).set (2 * k.val) w.1).set (2 * k.val + 1) w.2) }

/-- The slots of the P phase (R114). -/
def pSlots : List Slot := (List.finRange 9).map .p

/-- The slots of the S phase (R115, D9). -/
def sSlots (o : KsSboxOrder) : List Slot :=
  match o with
  | .boxByBox => (List.finRange 4).flatMap fun b => (List.finRange 128).map fun k => .s b k
  | .interleaved => (List.finRange 128).flatMap fun k => (List.finRange 4).map fun b => .s b k

/-- The key schedule under way: the tables as replaced so far, and the schedule block D (R36 (b)). -/
structure Sched where
  tab : Tables
  d : Block
deriving DecidableEq, Repr

/-- The zero block D starts as (R114). -/
def zeroBlock : Block := Vector.replicate 8 0

/-- One schedule encryption (R114, R115): with the tables as they are now, on the previous output or, under
D7's alternative, on a fresh zero block. -/
def schedStep (r : KsReading) (x : Sched) (slot : Slot) : Sched :=
  let d := encBlock x.tab (if r.chain then x.d else zeroBlock)
  { tab := slot.fill x.tab (outputWords r.words d), d := d }

/-- Steps 2 to 5 (R112 to R115): the tables for key words `k`. -/
def keySchedule (r : KsReading) (init : Tables) (k : List Word) : Tables :=
  ((pSlots ++ sSlots r.order).foldl (schedStep r) { tab := mixKey init k, d := zeroBlock }).tab

/-! ## The buffer commands -/

/-- Transforms `count` blocks of a buffer in place from block k on (R133, R134, R137). -/
def cryptBlocks (f : Block → Block) : Nat → Nat → Memory → Except Nat Memory
  | 0, _, m => .ok m
  | count + 1, k, m =>
    match readBlock m (8 * k) with
    | .error a => .error a
    | .ok b => cryptBlocks f count (k + 1) (writeBlock m (8 * k) (f b))

/-- ENCBUF and DECBUF but for the block transform (R133, R134): both tests come before any byte is touched. -/
def cryptBuf (f : Tables → Block → Block) (s : State) : Out :=
  if s.ciph.status.busy then .refused (.busyAccess .ciph)
  else if s.cfg.cbufCap < s.ciph.cLen.toNat then .next (raiseC .lengthExceedsBuffer (startC s))
  else if s.ciph.keyed = false then .next (raiseC .notKeyed (startC s))
  else
    match cryptBlocks (f s.ciph.tab) (s.ciph.cLen.toNat / Config.blockBytes) 0 s.ciph.cbuf with
    | .error a => .fault (.noValue .cbuf a)
    | .ok m => .next (haltC (startC { s with ciph := { s.ciph with cbuf := m } }))

/-! ## Meanings -/

/-- KEYLOAD once accepted, KEYED cleared (R111 to R116). Only the key words R23 says are ever read are read: the first
18; with more of them, index `i mod n` of R113 is `i` either way (R118 (c)). -/
def loadKey (s : State) : Out :=
  if s.cfg.kbufCap < s.ciph.cLen.toNat then .next (raiseKeyload .lengthExceedsBuffer s)
  else if s.ciph.cLen.toNat / Config.keyWordBytes = 0 then .next (raiseKeyload .keyTooShort s)
  else
    match keyWords s.ciph.kbuf 0 (min (s.ciph.cLen.toNat / Config.keyWordBytes) Config.pWords) with
    | .error a => .fault (.noValue .kbuf a)
    | .ok k =>
      .next (haltC { s with ciph := { s.ciph with
          tab := keySchedule s.cfg.ks s.cfg.init k
          keyed := true
          temps := freeCiphTemps s.ciph.free } })

/-- KEYLOAD (R110 to R122). -/
def execKeyload (s : State) : Out :=
  if s.ciph.status.busy then .refused (.busyAccess .ciph)
  else loadKey (startC { s with ciph := { s.ciph with keyed := false } })

/-- ENCBUF (R133). -/
def execEncbuf (s : State) : Out := cryptBuf encBlock s

/-- DECBUF (R134). -/
def execDecbuf (s : State) : Out := cryptBuf decBlock s

end Sys2Proof.Machine
end

