-- ==== Sys2Proof/Machine/Dcmp.lean ====
section
/-! DEFINITION. Unit DCMP (42_dcmp_tokens.md): the copy, and the meanings of DSTART, LIT, SCOPY, LCOPY, LCOPYX,
END. A token's operands have been read by the fetch when its meaning runs (R161). -/

namespace Sys2Proof.Machine

/-- The copy steps of R168: each reads at the current write position and appends. -/
def copySteps (cap : Option Nat) (offset : Int) : Nat → Win → WinOut Win
  | 0, w => .ok w
  | size + 1, w =>
    (winRead w offset).andThen fun v => (append cap w v).andThen fun w' => copySteps cap offset size w'

/-- Copy (R168): a non-negative offset is tested before the first step. -/
def copy (cap : Option Nat) (offset : Int) (size : Nat) (w : Win) : WinOut Win :=
  if 0 ≤ offset then .raise .nonNegativeOffset else copySteps cap offset size w

/-- DSTART (R160): the run starts; its loop (R161) is the steps that follow. -/
def execDstart (s : State) : Out :=
  if s.dcmp.status.busy then .refused (.busyAccess .dcmp)
  else if s.cfg.dinCap < s.dcmp.dIlen.toNat then .next (raiseD .lengthExceedsBuffer (startD s))
  else
    .next (startD { s with
      dcmp := { s.dcmp with
        ilen := s.dcmp.dIlen.toNat
        cur := { s.dcmp.cur with ipos := 0, bitcnt := 0 }
        opos := 0 } })

/-- LIT (R163). -/
def execLit (v : Byte) (s : State) : Out := finishToken s (append s.cfg.doutCap s.win v)

/-- SCOPY (R164). -/
def execScopy (a b : Bool) (o : Byte) (s : State) : Out :=
  finishToken s (copy s.cfg.doutCap (shortOffset o) (shortSize a b) s.win)

/-- LCOPY (R165). -/
def execLcopy (q : BitVec 13) (sz : BitVec 3) (s : State) : Out :=
  finishToken s (copy s.cfg.doutCap (longOffset s.cfg.longOffset q) (longSize sz) s.win)

/-- LCOPYX (R166). -/
def execLcopyx (q : BitVec 13) (n : Byte) (s : State) : Out :=
  finishToken s (copy s.cfg.doutCap (longOffset s.cfg.longOffset q) (extSize n) s.win)

/-- END (R167). -/
def execEnd (s : State) : Out :=
  .next (haltD (endToken { s with
    dcmp := { s.dcmp with dOlen := position32 s.dcmp.opos, dIpos := position32 s.dcmp.cur.ipos } }))

end Sys2Proof.Machine
end

