-- ==== Sys2Proof/Machine/Dispatch.lean ====
section
/-! DEFINITION. One arm per instruction. -/

namespace Sys2Proof.Machine

def exec (i : Instr) (s : State) : Host.Outcome State Fault Refusal :=
  match i with
  | .keyload => Sys2Proof.Machine.execKeyload s
  | .encbuf => Sys2Proof.Machine.execEncbuf s
  | .decbuf => Sys2Proof.Machine.execDecbuf s
  | .dstart => Sys2Proof.Machine.execDstart s
  | .lit v => Sys2Proof.Machine.execLit v s
  | .scopy a b o => Sys2Proof.Machine.execScopy a b o s
  | .lcopy q sz => Sys2Proof.Machine.execLcopy q sz s
  | .lcopyx q n => Sys2Proof.Machine.execLcopyx q n s
  | .endMark => Sys2Proof.Machine.execEnd s

end Sys2Proof.Machine
end

