-- ==== Sys2Proof/Machine/Host.lean ====
section
/-! DEFINITION. The host's side of the interface (R31, R32, R50, R80, R231), the token fetch (R161), and what a
step does when it is the host's turn or the units' (R213). -/

namespace Sys2Proof.Machine

/-- A write to C_CMD (R31, R80, R81, R206). -/
def writeCCmd (v : Word) (s : State) : Out :=
  if s.ciph.status.busy then .refused (.busyAccess .ciph)
  else
    match decodeCCmd v with
    | some i => exec i s
    | none => .next (illegalC s)

/-- A write to D_CMD (R32, R80, R81, R206). -/
def writeDCmd (v : Word) (s : State) : Out :=
  if s.dcmp.status.busy then .refused (.busyAccess .dcmp)
  else
    match decodeDCmd v with
    | some i => exec i s
    | none => .next (illegalD s)

/-- A write to a register of CIPH (R31). -/
def writeCReg (no : Nat) (v : Word) (s : State) : Out :=
  match no with
  | 0 => writeCCmd v s
  | 1 => .refused .noHostPath
  | 2 =>
    if s.ciph.status.busy then .refused (.busyAccess .ciph)
    else .next { s with ciph := { s.ciph with cLen := v } }
  | k + 3 => .fault (.noSuchRegister .ciph (k + 3))

/-- A write to a register of DCMP (R32). -/
def writeDReg (no : Nat) (v : Word) (s : State) : Out :=
  match no with
  | 0 => writeDCmd v s
  | 1 => .refused .noHostPath
  | 2 =>
    if s.dcmp.status.busy then .refused (.busyAccess .dcmp)
    else .next { s with dcmp := { s.dcmp with dIlen := v } }
  | 3 => .refused .noHostPath
  | 4 => .refused .noHostPath
  | k + 5 => .fault (.noSuchRegister .dcmp (k + 5))

/-- What a read of a register of CIPH returns (R31); `none` where there is no such register. -/
def readCReg (no : Nat) (c : Ciph) : Option Word :=
  match no with
  | 0 => some 0
  | 1 => some (cStatus c)
  | 2 => some c.cLen
  | _ => none

/-- What a read of a register of DCMP returns (R32); `none` where there is no such register. -/
def readDReg (no : Nat) (d : Dcmp) : Option Word :=
  match no with
  | 0 => some 0
  | 1 => some (dStatus d)
  | 2 => some d.dIlen
  | 3 => some d.dOlen
  | 4 => some d.dIpos
  | _ => none

/-- What a read of a register returns, whether or not the read is allowed now. -/
def readReg (u : UnitId) (no : Nat) (s : State) : Option Word :=
  match u with
  | .ciph => readCReg no s.ciph
  | .dcmp => readDReg no s.dcmp

/-- BUSY of a unit (R31, R32). -/
def State.busy (s : State) : UnitId → Bool
  | .ciph => s.ciph.status.busy
  | .dcmp => s.dcmp.status.busy

/-- A host read of a register (R31, R32). The operand register, number 2 of each unit, is refused while the unit is busy
(R239, 92_eei_decisions.md D5, 93_implementation_defined.md U7); every other register answers. R70 itself names only
register writes: that U7's access includes this read is DEDUCED, log 13. -/
def hostReadReg (u : UnitId) (no : Nat) (s : State) : Out :=
  if no = 2 ∧ s.busy u = true then .refused (.busyAccess u)
  else
    match readReg u no s with
    | some w => .next { s with hostIn := .word w }
    | none => .fault (.noSuchRegister u no)

/-- A host write of one byte (R50, R70). -/
def hostWriteByte (sp : Space) (a : Nat) (v : Byte) (s : State) : Out :=
  match sp with
  | .kbuf =>
    if s.ciph.status.busy then .refused (.busyAccess .ciph)
    else if s.cfg.kbufCap ≤ a then .fault (.noSuchAddress .kbuf a)
    else .next { s with ciph := { s.ciph with kbuf := Memory.write s.ciph.kbuf a v } }
  | .cbuf =>
    if s.ciph.status.busy then .refused (.busyAccess .ciph)
    else if s.cfg.cbufCap ≤ a then .fault (.noSuchAddress .cbuf a)
    else .next { s with ciph := { s.ciph with cbuf := Memory.write s.ciph.cbuf a v } }
  | .din =>
    if s.dcmp.status.busy then .refused (.busyAccess .dcmp)
    else if s.cfg.dinCap ≤ a then .fault (.noSuchAddress .din a)
    else .next { s with dcmp := { s.dcmp with din := Memory.write s.dcmp.din a v } }
  | .dout => .refused .noHostPath

/-- The byte a host read returns. Of a byte that has no value it is the free value `free` (R37, U6, log 14): R37 keeps
commands from reading such a byte, not the host. -/
def answerByte (m : Memory) (a : Nat) (free : Byte) (s : State) : Out :=
  .next { s with hostIn := .byte ((Memory.read m a).getD free) }

/-- A host read of one byte (R50, R70). -/
def hostReadByte (sp : Space) (a : Nat) (s : State) : Out :=
  match sp with
  | .kbuf => .refused .noHostPath
  | .cbuf =>
    if s.ciph.status.busy then .refused (.busyAccess .ciph)
    else if s.cfg.cbufCap ≤ a then .fault (.noSuchAddress .cbuf a)
    else answerByte s.ciph.cbuf a (Config.unwrittenByte s.ciph.free 0 a) s
  | .din => .refused .noHostPath
  | .dout =>
    if s.dcmp.status.busy then .refused (.busyAccess .dcmp)
    else if hasRoom s.cfg.doutCap a = false then .fault (.noSuchAddress .dout a)
    else answerByte s.dcmp.dout a (Config.unwrittenByte s.dcmp.free 1 a) s

/-- Reset of both units (R230, R231), at any moment: the parameters and the model's own fields stay. -/
def resetUnits (s : State) : State :=
  { s with ciph := { Ciph.reset with free := s.ciph.free }, dcmp := { Dcmp.reset with free := s.dcmp.free } }

/-- One host action (R213). -/
def hostAct (a : HostAct) (s : State) : Out :=
  match a with
  | .writeReg .ciph no v => writeCReg no v s
  | .writeReg .dcmp no v => writeDReg no v s
  | .readReg u no => hostReadReg u no s
  | .writeByte sp n v => hostWriteByte sp n v s
  | .readByte sp n => hostReadByte sp n s
  | .reset => .next (resetUnits s)

/-- The compressed stream the fetch reads: DIN up to ilen (R27). -/
def State.stream (s : State) : Stream := { len := s.dcmp.ilen, byteAt := fun a => Memory.read s.dcmp.din a }

/-- One iteration of the loop (R161): fetch a token, then execute it at the cursor after it. Running out of
input raises InputExhausted (R202), with the cursor where the last successful read left it. -/
def tokenStep (s : State) : Out :=
  match decodeToken s.stream s.dcmp.cur with
  | .ok i c => exec i (s.setCursor c)
  | .stop .exhausted c => .next (raiseD .inputExhausted (s.setCursor c))
  | .stop (.noValue a) _ => .fault (.noValue .din a)

/-- The units' turn: DCMP runs a token of its run; with no run under way nothing happens (R215, R230). A CIPH
command is one transition (R70), so CIPH has nothing under way between steps. -/
def unitsTurn (s : State) : Out := if s.dcmp.status.busy then tokenStep s else .next s

/-- One step (R213): the host's next action if its time has come, else the units' turn. -/
def machineStep (s : State) : Out :=
  match s.hostq with
  | [] => unitsTurn s
  | ⟨0, a⟩ :: rest => hostAct a { s with hostq := rest }
  | ⟨k + 1, a⟩ :: rest => unitsTurn { s with hostq := ⟨k, a⟩ :: rest }

/-- Writes bytes of the stream where the fetch reads next. -/
def placeStream (bs : List Byte) (s : State) : State :=
  { s with dcmp := { s.dcmp with
      din := Memory.writeAll s.dcmp.din s.dcmp.cur.ipos bs
      ilen := s.dcmp.cur.ipos + bs.length
      cur := { s.dcmp.cur with bitcnt := 0 }
      status := s.dcmp.status.start } }

end Sys2Proof.Machine
end

