-- ==== Sys2Proof/Machine/Step.lean ====
section
/-! DEFINITION. The step, and how one instruction is put where the next step fetches it. -/

namespace Sys2Proof.Machine

/-- One step of the machine. -/
def step (s : State) : Host.Outcome State Fault Refusal := machineStep s

/-- `s` with one instruction placed so that the next step runs exactly it (log 11, log 12): a row of 32 bits is
the host's next action, a write of it to C_CMD; any other row is a stream of its own bytes at DCMP's cursor,
with no control bit cached, a run under way and no host action due. -/
def State.withFetchWord (s : State) (nbits w : Nat) : State :=
  if nbits = 32 then { s with hostq := ⟨0, .writeReg .ciph 0 (BitVec.ofNat 32 w)⟩ :: s.hostq }
  else placeStream (tableBytes (tableByteCount nbits) w) { s with hostq := [] }

end Sys2Proof.Machine
end

