-- ==== Sys2Proof/Safety.lean ====
section
/-! DEFINITION. What counts as a sound state, in the terms the statements use: the ranges 10_state.md gives the
positions, the canonical form and the bounds of the buffers, and what the status flags say of the rest. -/

namespace Sys2Proof.Machine

/-- The status bits agree with each other (R206), and the cause is 0 or one of the codes `1 .. top` (R201, R202). -/
structure Status.Legal (top : Nat) (st : Status) : Prop where
  busy_alone : st.busy = true → st.done = false ∧ st.fault = false
  done_alone : st.done = true → st.fault = false
  cause_zero : st.fault = false → st.cause = 0
  cause_code : st.fault = true → 1 ≤ st.cause.toNat ∧ st.cause.toNat ≤ top

/-- A buffer in canonical form, within its capacity (R51). -/
def Memory.Sound (m : Memory) (cap : Nat) : Prop := Memory.wf m ∧ Memory.below m cap

/-- Unit CIPH between two steps: idle, since a command is one transition (R70). -/
structure Ciph.Inv (cfg : Params) (c : Ciph) : Prop where
  idle : c.status.busy = false
  status : c.status.Legal 4
  kbuf : Memory.Sound c.kbuf cfg.kbufCap
  cbuf : Memory.Sound c.cbuf cfg.cbufCap

/-- Unit DCMP between two steps: the ranges of R26, R28, R29; ilen constant during a run (R27); the window
written while a run is under way and after it ended (R29, R64); D_OLEN and D_IPOS after DONE (R32). -/
structure Dcmp.Inv (cfg : Params) (d : Dcmp) : Prop where
  ipos_le : d.cur.ipos ≤ d.ilen
  bitcnt_le : d.cur.bitcnt ≤ 8
  ilen_run : d.status.busy = true → d.ilen = d.dIlen.toNat ∧ d.ilen ≤ cfg.dinCap
  opos_le : ∀ c, cfg.doutCap = some c → d.opos ≤ c
  window : d.status.busy = true ∨ d.status.done = true → ∀ a, a < d.opos → (Memory.read d.dout a).isSome
  result : d.status.done = true → d.dOlen = position32 d.opos ∧ d.dIpos = position32 d.cur.ipos
  status : d.status.Legal 6
  din : Memory.Sound d.din cfg.dinCap
  dout : Memory.wf d.dout ∧ ∀ c, cfg.doutCap = some c → Memory.below d.dout c

/-- A sound state. -/
structure State.Inv (s : State) : Prop where
  cfg : s.cfg.wf
  ciph : s.ciph.Inv s.cfg
  dcmp : s.dcmp.Inv s.cfg

end Sys2Proof.Machine
end

