-- ==== Sys2Proof/Certificates/Slice0/Obligations.lean ====
section
/-! DEFINITION. The statements for the provers, each from numbered rules of spec/. No statement rests on what a free value
is, on the value of an open parameter or on a reset value the model chose; a statement that rests on a choice of the model's
own says so in its docstring, with the log entry. -/

namespace Sys2Proof.Machine

/-! ## Words the statements use -/

/-- The tokens that do not end a run (R84, R161). -/
def Instr.isBody : Instr → Bool
  | .lit _ => true
  | .scopy _ _ _ => true
  | .lcopy _ _ => true
  | .lcopyx _ _ => true
  | _ => false

/-- The five tokens (R84). -/
def Instr.isToken (i : Instr) : Bool := Instr.isBody i || i == .endMark

/-- The three commands of CIPH (R80). -/
def Instr.isCiph : Instr → Bool
  | .keyload => true
  | .encbuf => true
  | .decbuf => true
  | _ => false

/-- Control bits asked for one after another and nothing else, from a cursor on (R61). -/
def bitsFrom (st : Stream) : Nat → Cursor → Option (List Bool)
  | 0, _ => some []
  | n + 1, c =>
    match getBit st c with
    | .ok b c' => (bitsFrom st n c').map (b :: ·)
    | .stop _ _ => none

/-- A number of steps, stopping at the first that does not answer a next state. -/
def runFor : Nat → State → Out
  | 0, s => .next s
  | n + 1, s =>
    match step s with
    | .next t => runFor n t
    | .fault r => .fault r
    | .refused r => .refused r

/-- Nothing but the window and DCMP's temporaries changed; the run goes on. -/
def OnlyWindow (s t : State) : Prop :=
  t = { s with dcmp := { s.dcmp with opos := t.dcmp.opos, dout := t.dcmp.dout, temps := t.dcmp.temps, free := t.dcmp.free } }

/-- A CIPH command ended DONE, and nothing else changed but the tables, KEYED, CBUF (which the statement using this
word speaks of) and the temporaries. -/
def CDone (s t : State) : Prop :=
  t = { s with ciph := { s.ciph with
    tab := t.ciph.tab, keyed := t.ciph.keyed, cbuf := t.ciph.cbuf, temps := t.ciph.temps, free := t.ciph.free
    status := { busy := false, done := true, fault := false, cause := 0 } } }

/-- A CIPH command took the fault with this code (R201, R206), and nothing else changed but the temporaries. -/
def CFault (code : BitVec 4) (s t : State) : Prop :=
  t = { s with ciph := { s.ciph with
    temps := t.ciph.temps, free := t.ciph.free
    status := { busy := false, done := false, fault := true, cause := code } } }

/-- DCMP took the fault with this code (R202, R206), and nothing else changed but what R207 leaves unspecified and the
temporaries. -/
def DFault (code : BitVec 4) (s t : State) : Prop :=
  t = { s with dcmp := { s.dcmp with
    opos := t.dcmp.opos, dout := t.dcmp.dout, dOlen := t.dcmp.dOlen, dIpos := t.dcmp.dIpos
    temps := t.dcmp.temps, free := t.dcmp.free
    status := { busy := false, done := s.dcmp.status.done, fault := true, cause := code } } }

/-- A copy over this distance and of this size can run: its first source is inside the window, the window is written,
and there is room for all of it. -/
def CopyReady (s : State) (d size : Nat) : Prop :=
  0 < d ∧ d ≤ s.dcmp.opos ∧ (∀ a, s.dcmp.opos - d ≤ a → a < s.dcmp.opos → (Memory.read s.dcmp.dout a).isSome) ∧
    ∀ c, s.cfg.doutCap = some c → s.dcmp.opos + size ≤ c

/-- The closed form of a copy over this distance and of this size (R169). -/
def Copied (s : State) (d size : Nat) (t : State) : Prop :=
  OnlyWindow s t ∧ t.dcmp.opos = s.dcmp.opos + size ∧
    (∀ k, k < size → Memory.read t.dcmp.dout (s.dcmp.opos + k) = Memory.read s.dcmp.dout (s.dcmp.opos - d + k % d)) ∧
    ∀ a, a < s.dcmp.opos ∨ s.dcmp.opos + size ≤ a → Memory.read t.dcmp.dout a = Memory.read s.dcmp.dout a

/-- The distance a long token's field stands for (R93): under both readings `8192 - q`, where it is a distance. -/
def longDistance (q : BitVec 13) : Nat := 8192 - q.toNat

/-- The field names a distance: always under `or_m8192`, and under `sext13` when its top bit is 1 (R93). -/
def LongBack (s : State) (q : BitVec 13) : Prop := s.cfg.longOffset = .orM8192 ∨ 4096 ≤ q.toNat

/-- The byte of CBUF with index `x` of its block, after block `x / 8` went through `f`. -/
def cryptedByte (f : Block → Block) (g : Nat → Byte) (x : Nat) : Option Byte :=
  (f #v[g (x - x % 8), g (x - x % 8 + 1), g (x - x % 8 + 2), g (x - x % 8 + 3), g (x - x % 8 + 4), g (x - x % 8 + 5),
    g (x - x % 8 + 6), g (x - x % 8 + 7)])[x % 8]?

/-- Two DCMP states that differ at most in what a run does not read (R172). -/
def SameRun (s1 s2 : State) : Prop :=
  s1.cfg.doutCap = s2.cfg.doutCap ∧ s1.cfg.longOffset = s2.cfg.longOffset ∧ s1.hostq = [] ∧ s2.hostq = [] ∧
    s1.dcmp.ilen = s2.dcmp.ilen ∧ s1.dcmp.cur = s2.dcmp.cur ∧ s1.dcmp.opos = s2.dcmp.opos ∧
    s1.dcmp.status = s2.dcmp.status ∧
    (∀ a, a < s1.dcmp.ilen → Memory.read s1.dcmp.din a = Memory.read s2.dcmp.din a) ∧
    ∀ a, a < s1.dcmp.opos → Memory.read s1.dcmp.dout a = Memory.read s2.dcmp.dout a

end Sys2Proof.Machine

open Sys2Proof Sys2Proof.Machine

/-! ## Encoding -/

/-- What the decoder reads back from the encoding of a well-formed instruction is that instruction, at every value of
every operand (R80, R84 to R88, R100). -/
def Obligations.EncodeDecodeRoundTrip : Prop :=
  ∀ i : Instr, i.wf = true → decodeEncoding (encode i) = some i

/-- R100: the packed bytes of any token program that ends in END read back as that program. -/
def Obligations.PackedProgramReadsBack : Prop :=
  ∀ ts : List Instr, (∀ i ∈ ts, Instr.isBody i = true ∧ i.wf = true) →
    decodeTokens (.ofList (pack (ts ++ [.endMark]))) (ts.length + 1) .start = some (ts ++ [.endMark])

/-- R98: the stream bytes a token occupies are its data bytes and 0 or 1 control byte, and the control bits it reads
come from the cache or from that control byte. -/
def Obligations.TokenOccupiesItsLength : Prop :=
  ∀ (st : Stream) (c c' : Cursor) (i : Instr), c.bitcnt ≤ 8 → decodeToken st c = .ok i c' →
    ∃ k, k ≤ 1 ∧ c'.ipos = c.ipos + i.dataBytes + k ∧ c'.bitcnt + i.ctrlBits = c.bitcnt + 8 * k

/-- R95: with enough bytes left every control-bit pattern is some token, and the token is well formed (R88). -/
def Obligations.NoControlBitsAreIllegal : Prop :=
  ∀ (st : Stream) (c : Cursor), c.bitcnt ≤ 8 → c.ipos + 4 ≤ st.len → (∀ a, a < st.len → (st.byteAt a).isSome) →
    ∃ i c', decodeToken st c = .ok i c' ∧ i.wf = true ∧ Instr.isToken i = true

/-- R84, R88: the first control bit, the second, and then the field f select the token. -/
def Obligations.PrefixSelectsToken : Prop :=
  ∀ (st : Stream) (c c' : Cursor) (i : Instr), decodeToken st c = .ok i c' →
    ∃ c0 d, getBit st c = .ok c0 d ∧ ((∃ v, i = .lit v) ↔ c0 = true) ∧
      (c0 = false → ∃ c1 d', getBit st d = .ok c1 d' ∧ ((∃ a b o, i = .scopy a b o) ↔ c1 = false) ∧
        (c1 = true → ∃ f d'', getU16 st d' = .ok f d'' ∧ (i = .endMark ↔ f = 0) ∧
          ((∃ q sz, i = .lcopy q sz) ↔ f ≠ 0 ∧ f.toNat % 8 ≠ 0) ∧
          ((∃ q n, i = .lcopyx q n) ↔ f ≠ 0 ∧ f.toNat % 8 = 0) ∧
          (∀ q sz, i = .lcopy q sz → f.toNat = 8 * q.toNat + sz.toNat) ∧
          ∀ q n, i = .lcopyx q n → f.toNat = 8 * q.toNat))

/-- R97: a token depends on no stream byte but those it consumed, so nothing after END is read. -/
def Obligations.DecodeReadsOnlyWhatItConsumes : Prop :=
  ∀ (st st' : Stream) (c c' : Cursor) (i : Instr), decodeToken st c = .ok i c' → c'.ipos ≤ st'.len →
    (∀ a, c.ipos ≤ a → a < c'.ipos → st'.byteAt a = st.byteAt a) → decodeToken st' c = .ok i c'

/-- R55: the k-th bit delivered from a control byte is bit k of that byte, and a new control byte is taken only for the
ninth bit (R61, R238). -/
def Obligations.ControlBitsFromBitZero : Prop :=
  ∀ (st : Stream) (c : Cursor) (n : Nat) (g : Nat → Byte), c.bitcnt = 0 →
    (∀ j, 8 * j < n → c.ipos + j < st.len ∧ st.byteAt (c.ipos + j) = some (g j)) →
    bitsFrom st n c = some ((List.range n).map fun k => (g (k / 8)).getLsbD (k % 8))

/-- A few words from the spec's encodings: the streams of vectors S1, S2, T7, T9, T1 and the four command codes. -/
def Obligations.SampleWordsDecode : Prop :=
  decodeBytes [0x05, 0x69, 0x00, 0x00] = .ok (.lit 0x69) { ipos := 2, bitbuf := 0x02, bitcnt := 7 } ∧
  decodeBytes [0x04, 0xFF] = .ok (.scopy true false 0xFF) { ipos := 2, bitbuf := 0, bitcnt := 4 } ∧
  decodeBytes [0x02, 0xE9, 0xFF] = .ok (.lcopy 0x1FFD 1) { ipos := 3, bitbuf := 0, bitcnt := 6 } ∧
  decodeBytes [0x02, 0xE8, 0xFF, 0x00] = .ok (.lcopyx 0x1FFD 0) { ipos := 4, bitbuf := 0, bitcnt := 6 } ∧
  decodeBytes [0x02, 0x00, 0x00] = .ok .endMark { ipos := 3, bitbuf := 0, bitcnt := 6 } ∧
  decodeCCmd 1 = some .keyload ∧ decodeCCmd 2 = some .encbuf ∧ decodeCCmd 3 = some .decbuf ∧
  decodeDCmd 1 = some .dstart

/-! ## The step -/

/-- R161: during a run, with no host action due, a step is exec of the token the fetch reads, at the cursor after it.
Clause 2 is the model's host queue (log 3): an action that is not yet due waits one step less. -/
def Obligations.StepRunsFetchedToken : Prop :=
  ∀ (s : State) (i : Instr) (c : Cursor), s.dcmp.status.busy = true → decodeToken s.stream s.dcmp.cur = .ok i c →
    (s.hostq = [] → step s = exec i (s.setCursor c)) ∧
    ∀ k a rest, s.hostq = ⟨k + 1, a⟩ :: rest → step s = exec i ({ s with hostq := ⟨k, a⟩ :: rest }.setCursor c)

/-- R80: a host's write of a legal code to the command register of an idle unit is exec of that command. The queue the
write is taken from is the model's own (log 3). -/
def Obligations.StepRunsWrittenCommand : Prop :=
  ∀ (s : State) (w : Word) (i : Instr) (rest : List Pending),
    (s.hostq = ⟨0, .writeReg .ciph 0 w⟩ :: rest → s.ciph.status.busy = false → decodeCCmd w = some i →
      step s = exec i { s with hostq := rest }) ∧
    (s.hostq = ⟨0, .writeReg .dcmp 0 w⟩ :: rest → s.dcmp.status.busy = false → decodeDCmd w = some i →
      step s = exec i { s with hostq := rest })

/-- R81: a reserved command code raises IllegalCommand and changes no other state. -/
def Obligations.ReservedCommandsChangeOnlyStatus : Prop :=
  ∀ (s : State) (w : Word) (rest : List Pending),
    (s.hostq = ⟨0, .writeReg .ciph 0 w⟩ :: rest → s.ciph.status.busy = false → w ≠ 1 → w ≠ 2 → w ≠ 3 →
      step s = .next { s with
        hostq := rest
        ciph := { s.ciph with status := { busy := false, done := false, fault := true, cause := 1 } } }) ∧
    (s.hostq = ⟨0, .writeReg .dcmp 0 w⟩ :: rest → s.dcmp.status.busy = false → w ≠ 1 →
      step s = .next { s with
        hostq := rest
        dcmp := { s.dcmp with status := { busy := false, done := false, fault := true, cause := 1 } } })

/-- R61 to R63, R96 (c): a run whose stream ends before its token does takes InputExhausted; a run at the end of its
stream with no control bit cached is one (so is an empty stream, R161). -/
def Obligations.StreamEndFaults : Prop :=
  (∀ (s : State) (c : Cursor), s.hostq = [] → s.dcmp.status.busy = true →
    decodeToken s.stream s.dcmp.cur = .stop .exhausted c →
    ∃ t, step s = .next t ∧ DFault 3 (s.setCursor c) t) ∧
  ∀ s : State, s.dcmp.ilen ≤ s.dcmp.cur.ipos → s.dcmp.cur.bitcnt = 0 →
    decodeToken s.stream s.dcmp.cur = .stop .exhausted s.dcmp.cur

/-- R230, R215: with no run under way and no host action to come a step changes nothing. -/
def Obligations.IdleMachineWaits : Prop :=
  ∀ s : State, s.hostq = [] → s.dcmp.status.busy = false → step s = .next s

/-! ## DCMP: DSTART and the tokens -/

/-- R160: DSTART takes D_ILEN as ilen and starts at position 0 with an empty cache and an empty output. D_OLEN and
D_IPOS are not spoken of: while DONE is 0 they hold nothing a host may rely on (R32). -/
def Obligations.DstartBeginsRun : Prop :=
  ∀ s : State, s.dcmp.status.busy = false → s.dcmp.dIlen.toNat ≤ s.cfg.dinCap →
    ∃ t, exec .dstart s = .next t ∧
      t = { s with dcmp := { s.dcmp with
        ilen := s.dcmp.dIlen.toNat
        cur := { s.dcmp.cur with ipos := 0, bitcnt := 0 }
        opos := 0
        status := { busy := true, done := false, fault := false, cause := 0 }
        dOlen := t.dcmp.dOlen, dIpos := t.dcmp.dIpos, free := t.dcmp.free } }

/-- R160, R202: a D_ILEN above DIN_CAP faults LengthExceedsBuffer. -/
def Obligations.DstartTooLongFaults : Prop :=
  ∀ s : State, s.dcmp.status.busy = false → s.cfg.dinCap < s.dcmp.dIlen.toNat →
    ∃ t, exec .dstart s = .next t ∧
      DFault 2 { s with dcmp := { s.dcmp with status := { busy := true, done := false, fault := false, cause := 0 } } } t

/-- R163, R65: with room, LIT writes its byte at the write position and advances it; nothing else changes. -/
def Obligations.LitAppendsByte : Prop :=
  ∀ (v : Byte) (s : State), (∀ c, s.cfg.doutCap = some c → s.dcmp.opos < c) →
    ∃ t, exec (.lit v) s = .next t ∧ OnlyWindow s t ∧ t.dcmp.opos = s.dcmp.opos + 1 ∧
      ∀ a, Memory.read t.dcmp.dout a = if a = s.dcmp.opos then some v else Memory.read s.dcmp.dout a

/-- R164, R89, R90, R169: SCOPY copies 2a + b + 2 bytes from 256 - o back. -/
def Obligations.ScopyCopies : Prop :=
  ∀ (a b : Bool) (o : Byte) (s : State), CopyReady s (256 - o.toNat) (2 * a.toNat + b.toNat + 2) →
    ∃ t, exec (.scopy a b o) s = .next t ∧ Copied s (256 - o.toNat) (2 * a.toNat + b.toNat + 2) t

/-- R165, R91, R93, R169: LCOPY copies sz + 2 bytes from 8192 - q back, under either reading of the offset wherever that
reading gives a distance. -/
def Obligations.LcopyCopies : Prop :=
  ∀ (q : BitVec 13) (sz : BitVec 3) (s : State), LongBack s q → CopyReady s (longDistance q) (sz.toNat + 2) →
    ∃ t, exec (.lcopy q sz) s = .next t ∧ Copied s (longDistance q) (sz.toNat + 2) t

/-- R166, R92, R93, R169: LCOPYX copies n + 10 bytes from 8192 - q back. -/
def Obligations.LcopyxCopies : Prop :=
  ∀ (q : BitVec 13) (n : Byte) (s : State), LongBack s q → CopyReady s (longDistance q) (n.toNat + 10) →
    ∃ t, exec (.lcopyx q n) s = .next t ∧ Copied s (longDistance q) (n.toNat + 10) t

/-- R167: END records opos and ipos, ends the run DONE and writes nothing to DOUT. Of a position of 2^32 or more, which no
32-bit register holds, the registers' values are not spoken of (log 9); the run ends all the same. -/
def Obligations.EndStopsRun : Prop :=
  ∀ s : State, ∃ t, exec .endMark s = .next t ∧
    t = { s with dcmp := { s.dcmp with
      dOlen := t.dcmp.dOlen
      dIpos := t.dcmp.dIpos
      status := { s.dcmp.status with busy := false, done := true }
      temps := t.dcmp.temps, free := t.dcmp.free } } ∧
    (s.dcmp.opos < 2 ^ 32 → t.dcmp.dOlen = BitVec.ofNat 32 s.dcmp.opos) ∧
    (s.dcmp.cur.ipos < 2 ^ 32 → t.dcmp.dIpos = BitVec.ofNat 32 s.dcmp.cur.ipos)

/-- R96 (a), R168: under sext13 a long copy whose field has its top bit 0 faults NonNegativeOffset, whatever the window
and the room. -/
def Obligations.NonNegativeOffsetFaults : Prop :=
  ∀ (s : State) (q : BitVec 13), s.cfg.longOffset = .sext13 → q.toNat < 4096 →
    (∀ sz, ∃ t, exec (.lcopy q sz) s = .next t ∧ DFault 4 s t) ∧ ∀ n, ∃ t, exec (.lcopyx q n) s = .next t ∧ DFault 4 s t

/-- R64, R170, R205: a copy whose first source lies before the start of the output faults WindowUnderflow, also when the
output is full. -/
def Obligations.WindowUnderflowFaults : Prop :=
  ∀ s : State,
    (∀ a b o, s.dcmp.opos < 256 - BitVec.toNat o → ∃ t, exec (.scopy a b o) s = .next t ∧ DFault 5 s t) ∧
    ∀ q, LongBack s q → s.dcmp.opos < longDistance q →
      (∀ sz, ∃ t, exec (.lcopy q sz) s = .next t ∧ DFault 5 s t) ∧ ∀ n, ∃ t, exec (.lcopyx q n) s = .next t ∧ DFault 5 s t

/-- R65, R170: a token that would append past DOUT_CAP faults OutputOverflow. -/
def Obligations.OutputOverflowFaults : Prop :=
  ∀ (s : State) (cap : Nat), s.cfg.doutCap = some cap →
    (∀ v, cap ≤ s.dcmp.opos → ∃ t, exec (.lit v) s = .next t ∧ DFault 6 s t) ∧
    ∀ d, 0 < d → d ≤ s.dcmp.opos →
      (∀ a, s.dcmp.opos - d ≤ a → a < s.dcmp.opos → (Memory.read s.dcmp.dout a).isSome) →
      (∀ a b o, 256 - BitVec.toNat o = d → cap < s.dcmp.opos + (2 * Bool.toNat a + Bool.toNat b + 2) →
        ∃ t, exec (.scopy a b o) s = .next t ∧ DFault 6 s t) ∧
      ∀ q, LongBack s q → longDistance q = d →
        (∀ sz, cap < s.dcmp.opos + (BitVec.toNat sz + 2) → ∃ t, exec (.lcopy q sz) s = .next t ∧ DFault 6 s t) ∧
        ∀ n, cap < s.dcmp.opos + (BitVec.toNat n + 10) → ∃ t, exec (.lcopyx q n) s = .next t ∧ DFault 6 s t

/-- R171: sizes 3 to 5 can be written as SCOPY or LCOPY; for the same offset both do the same. Where both fault, the
equality of what R207 leaves unspecified is the model's choice: it is drawn at DCMP's counter alone (log 7, log 8); the same
of the temporaries (log 6). -/
def Obligations.ScopyAndLcopyAgree : Prop :=
  ∀ (s : State) (a b : Bool) (o : Byte) (q : BitVec 13) (sz : BitVec 3), LongBack s q →
    2 * a.toNat + b.toNat = sz.toNat → 256 - o.toNat = longDistance q → exec (.scopy a b o) s = exec (.lcopy q sz) s

/-- R162: a run of ilen bytes from its start ends within ilen tokens (one step when it is empty), with at most 265 * ilen
bytes of output. The other outcome is the model's stop at a stream or window byte without value (R37, log 2). -/
def Obligations.RunEndsWithinItsLength : Prop :=
  ∀ s : State, s.hostq = [] → s.dcmp.status.busy = true → s.dcmp.cur.ipos = 0 → s.dcmp.cur.bitcnt = 0 → s.dcmp.opos = 0 →
    ∃ n, n ≤ max 1 s.dcmp.ilen ∧
      ((∃ t, runFor n s = .next t ∧ t.dcmp.status.busy = false ∧
          (t.dcmp.status.fault = false → t.dcmp.opos ≤ 265 * s.dcmp.ilen)) ∨
        ∃ sp a, runFor n s = .fault (.noValue sp a))

/-- R172: what a run does depends on nothing but its stream, the window it has written, DOUT_CAP and LONG_OFFSET_MODE:
of two states that agree on these, one runs as the other does, as long as it does not fault. -/
def Obligations.RunDependsOnlyOnItsInput : Prop :=
  ∀ (n : Nat) (s1 s2 t1 : State), SameRun s1 s2 → runFor n s1 = .next t1 →
    t1.dcmp.status.fault = false → ∃ t2, runFor n s2 = .next t2 ∧ SameRun t1 t2

/-! ## CIPH -/

/-- R130: F on numbers: the bytes of x from the most significant one index S0 to S3; add, exclusive or, add, each sum
modulo 2^32. -/
def Obligations.RoundFunctionOnNumbers : Prop :=
  ∀ (t : Tables) (x : Word) (i0 i1 i2 i3 : Fin 256), i0.val = x.toNat / 2 ^ 24 → i1.val = x.toNat / 2 ^ 16 % 256 →
    i2.val = x.toNat / 2 ^ 8 % 256 → i3.val = x.toNat % 256 →
    (roundF t x).toNat =
      (((((t.s.get 0).get i0).toNat + ((t.s.get 1).get i1).toNat) % 2 ^ 32 ^^^ ((t.s.get 2).get i2).toNat) +
        ((t.s.get 3).get i3).toNat) % 2 ^ 32

/-- R131: EncBlock, as the values of L and R after each of its eight iterations. -/
def Obligations.EncBlockRounds : Prop :=
  ∀ (t : Tables) (b : Block) (l r m : Nat → Word) (p : Nat → Word), (∀ i : Fin 18, p i.val = t.p.get i) →
    l 0 = le32 b[0] b[1] b[2] b[3] → r 0 = le32 b[4] b[5] b[6] b[7] →
    (∀ j, j < 8 → m j = l j ^^^ p (2 * j) ∧ r (j + 1) = r j ^^^ roundF t (m j) ^^^ p (2 * j + 1) ∧
      l (j + 1) = m j ^^^ roundF t (r (j + 1))) →
    ∀ e : Block, le32 e[0] e[1] e[2] e[3] = r 8 ^^^ p 17 → le32 e[4] e[5] e[6] e[7] = l 8 ^^^ p 16 → encBlock t b = e

/-- R132: DecBlock, as the values of L and R after each of its eight iterations (90_conflicts.md C1: eight). -/
def Obligations.DecBlockRounds : Prop :=
  ∀ (t : Tables) (b : Block) (l r m : Nat → Word) (p : Nat → Word), (∀ i : Fin 18, p i.val = t.p.get i) →
    l 0 = le32 b[0] b[1] b[2] b[3] → r 0 = le32 b[4] b[5] b[6] b[7] →
    (∀ j, j < 8 → m j = l j ^^^ p (17 - 2 * j) ∧ r (j + 1) = r j ^^^ roundF t (m j) ^^^ p (16 - 2 * j) ∧
      l (j + 1) = m j ^^^ roundF t (r (j + 1))) →
    ∀ e : Block, le32 e[0] e[1] e[2] e[3] = r 8 ^^^ p 0 → le32 e[4] e[5] e[6] e[7] = l 8 ^^^ p 1 → decBlock t b = e

/-- R136, first part: the block transforms are each other's inverse, for every table and every block. -/
def Obligations.BlockTransformsInverse : Prop :=
  ∀ (t : Tables) (b : Block), decBlock t (encBlock t b) = b ∧ encBlock t (decBlock t b) = b

/-- R110 to R117: KEYLOAD with a key of at least one word, written up to its 18th word (R23, R118 (c)), runs the schedule. `T j` and `D j` are the tables and the
block D after j of the 521 encryptions: T 0 is the constant tables with the key mixed in (R112, R113), D 0 is zero, and
each encryption uses the tables as replaced so far and fills the next two words, first P (R114), then the S-boxes one
after another (R115). The tables of the last one are P and S, and KEYED and DONE are 1 (R116). -/
def Obligations.KeyloadRunsSchedule : Prop :=
  ∀ (s : State) (g : Nat → Byte), s.ciph.status.busy = false → s.cfg.ks = .decided → 4 ≤ s.ciph.cLen.toNat →
    s.ciph.cLen.toNat ≤ s.cfg.kbufCap →
    (∀ x, x < 72 → x < 4 * (s.ciph.cLen.toNat / 4) → Memory.read s.ciph.kbuf x = some (g x)) →
    ∃ (T : Nat → Tables) (D : Nat → Block) (t : State), exec .keyload s = .next t ∧
      (∀ i : Fin 18, (T 0).p.get i = s.cfg.init.p.get i ^^^
        be32 (g (4 * (i.val % (s.ciph.cLen.toNat / 4)))) (g (4 * (i.val % (s.ciph.cLen.toNat / 4)) + 1))
          (g (4 * (i.val % (s.ciph.cLen.toNat / 4)) + 2)) (g (4 * (i.val % (s.ciph.cLen.toNat / 4)) + 3))) ∧
      (T 0).s = s.cfg.init.s ∧ (∀ j : Fin 8, (D 0).get j = 0) ∧
      (∀ j, j < 521 → D (j + 1) = encBlock (T j) (D j)) ∧
      (∀ j, j < 9 → (T (j + 1)).s = (T j).s ∧ ∀ i : Fin 18, (T (j + 1)).p.get i =
        if i.val = 2 * j then le32 (D (j + 1))[0] (D (j + 1))[1] (D (j + 1))[2] (D (j + 1))[3]
        else if i.val = 2 * j + 1 then le32 (D (j + 1))[4] (D (j + 1))[5] (D (j + 1))[6] (D (j + 1))[7]
        else (T j).p.get i) ∧
      (∀ j, j < 512 → (T (j + 10)).p = (T (j + 9)).p ∧ ∀ (b : Fin 4) (k : Fin 256), ((T (j + 10)).s.get b).get k =
        if b.val = j / 128 ∧ k.val = 2 * (j % 128) then le32 (D (j + 10))[0] (D (j + 10))[1] (D (j + 10))[2] (D (j + 10))[3]
        else if b.val = j / 128 ∧ k.val = 2 * (j % 128) + 1 then
          le32 (D (j + 10))[4] (D (j + 10))[5] (D (j + 10))[6] (D (j + 10))[7]
        else ((T (j + 9)).s.get b).get k) ∧
      CDone s t ∧ t.ciph.tab = T 521 ∧ t.ciph.keyed = true ∧ t.ciph.cbuf = s.ciph.cbuf

/-- R110, R111, R119: KEYLOAD with a length above KBUF_CAP faults LengthExceedsBuffer, else with a length below 4
KeyTooShort; both leave the unit unkeyed and change nothing else but P, S, which hold no value (R207). -/
def Obligations.KeyloadFaultsUnkeyed : Prop :=
  ∀ s : State, s.ciph.status.busy = false →
    (s.cfg.kbufCap < s.ciph.cLen.toNat → ∃ t, exec .keyload s = .next t ∧
      CFault 2 { s with ciph := { s.ciph with keyed := false, tab := t.ciph.tab } } t) ∧
    (s.ciph.cLen.toNat ≤ s.cfg.kbufCap → s.ciph.cLen.toNat < 4 → ∃ t, exec .keyload s = .next t ∧
      CFault 3 { s with ciph := { s.ciph with keyed := false, tab := t.ciph.tab } } t)

/-- R133, R131, R135: a keyed ENCBUF encrypts each whole block of CBUF in place and leaves every other byte. -/
def Obligations.EncbufEncryptsBlocks : Prop :=
  ∀ (s : State) (g : Nat → Byte), s.ciph.status.busy = false → s.ciph.cLen.toNat ≤ s.cfg.cbufCap → s.ciph.keyed = true →
    (∀ x, x < 8 * (s.ciph.cLen.toNat / 8) → Memory.read s.ciph.cbuf x = some (g x)) →
    ∃ t, exec .encbuf s = .next t ∧ CDone s t ∧ t.ciph.tab = s.ciph.tab ∧ t.ciph.keyed = true ∧
      ∀ x, Memory.read t.ciph.cbuf x =
        if x < 8 * (s.ciph.cLen.toNat / 8) then cryptedByte (encBlock s.ciph.tab) g x else Memory.read s.ciph.cbuf x

/-- R134, R132, R135: a keyed DECBUF decrypts each whole block of CBUF in place and leaves every other byte. -/
def Obligations.DecbufDecryptsBlocks : Prop :=
  ∀ (s : State) (g : Nat → Byte), s.ciph.status.busy = false → s.ciph.cLen.toNat ≤ s.cfg.cbufCap → s.ciph.keyed = true →
    (∀ x, x < 8 * (s.ciph.cLen.toNat / 8) → Memory.read s.ciph.cbuf x = some (g x)) →
    ∃ t, exec .decbuf s = .next t ∧ CDone s t ∧ t.ciph.tab = s.ciph.tab ∧ t.ciph.keyed = true ∧
      ∀ x, Memory.read t.ciph.cbuf x =
        if x < 8 * (s.ciph.cLen.toNat / 8) then cryptedByte (decBlock s.ciph.tab) g x else Memory.read s.ciph.cbuf x

/-- R133, R134, R138, R205: ENCBUF and DECBUF with a length above CBUF_CAP fault LengthExceedsBuffer, keyed or not;
else unkeyed NotKeyed. CBUF, KEYED and the tables stay (R207). -/
def Obligations.BufferCommandFaults : Prop :=
  ∀ (s : State) (i : Instr), i = .encbuf ∨ i = .decbuf → s.ciph.status.busy = false →
    (s.cfg.cbufCap < s.ciph.cLen.toNat → ∃ t, exec i s = .next t ∧ CFault 2 s t) ∧
    (s.ciph.cLen.toNat ≤ s.cfg.cbufCap → s.ciph.keyed = false → ∃ t, exec i s = .next t ∧ CFault 4 s t)

/-- R136, second part: DECBUF after ENCBUF, and ENCBUF after DECBUF, with the same length and key state, restores
every byte of CBUF, wherever the first succeeds. -/
def Obligations.BufferCommandsUndoEachOther : Prop :=
  ∀ (s t : State) (i j : Instr), i = .encbuf ∧ j = .decbuf ∨ i = .decbuf ∧ j = .encbuf →
    exec i s = .next t → t.ciph.status.fault = false →
    ∃ u, exec j t = .next u ∧ u.ciph.status.done = true ∧
      ∀ x, Memory.read u.ciph.cbuf x = Memory.read s.ciph.cbuf x

/-- R140: ENCBUF and DECBUF change nothing but the whole blocks of CBUF below the length, the temporaries L and R,
and the status flags (and the model's own counter of free values, log 8). -/
def Obligations.BufferCommandsPreserve : Prop :=
  ∀ (s t : State) (i : Instr), i = .encbuf ∨ i = .decbuf → exec i s = .next t →
    t = { s with ciph := { s.ciph with
      cbuf := t.ciph.cbuf, status := t.ciph.status, free := t.ciph.free
      temps := { s.ciph.temps with l := t.ciph.temps.l, r := t.ciph.temps.r } } } ∧
    ∀ x, 8 * (s.ciph.cLen.toNat / 8) ≤ x → Memory.read t.ciph.cbuf x = Memory.read s.ciph.cbuf x

/-- R135: a length of 0 to 7 transforms no block and is no error; with any length the tail and all above it stay. -/
def Obligations.ShortBuffersAreDone : Prop :=
  ∀ (s : State) (i : Instr), i = .encbuf ∨ i = .decbuf → s.ciph.status.busy = false →
    s.ciph.cLen.toNat ≤ s.cfg.cbufCap → s.ciph.keyed = true → s.ciph.cLen.toNat < 8 →
    ∃ t, exec i s = .next t ∧ CDone s t ∧ t.ciph.tab = s.ciph.tab ∧ t.ciph.keyed = true ∧ t.ciph.cbuf = s.ciph.cbuf

/-- R137: a block's result depends only on its own eight bytes and on P and S: whatever the rest of the buffers and of
the states, and wherever the two blocks stand. -/
def Obligations.BlocksAreIndependent : Prop :=
  ∀ (s s' t t' : State) (i : Instr) (k k' : Nat), i = .encbuf ∨ i = .decbuf → s.ciph.tab = s'.ciph.tab →
    exec i s = .next t → exec i s' = .next t' → t.ciph.status.fault = false → t'.ciph.status.fault = false →
    k < s.ciph.cLen.toNat / 8 → k' < s'.ciph.cLen.toNat / 8 →
    (∀ j, j < 8 → Memory.read s.ciph.cbuf (8 * k + j) = Memory.read s'.ciph.cbuf (8 * k' + j)) →
    ∀ j, j < 8 → Memory.read t.ciph.cbuf (8 * k + j) = Memory.read t'.ciph.cbuf (8 * k' + j)

/-- R118 (a) and (c): the bytes after the last whole key word, and those from the 72nd on, have no effect: two keys with
the same number of words, or both of at least 18, and the same bytes in the first 18 words give the same tables. -/
def Obligations.KeyTailIsIgnored : Prop :=
  ∀ s s' t t' : State, s.cfg = s'.cfg → exec .keyload s = .next t → exec .keyload s' = .next t' →
    t.ciph.keyed = true → t'.ciph.keyed = true →
    s.ciph.cLen.toNat / 4 = s'.ciph.cLen.toNat / 4 ∨ 18 ≤ s.ciph.cLen.toNat / 4 ∧ 18 ≤ s'.ciph.cLen.toNat / 4 →
    (∀ x, x < 72 → x < 4 * (s.ciph.cLen.toNat / 4) → Memory.read s.ciph.kbuf x = Memory.read s'.ciph.kbuf x) →
    t.ciph.tab = t'.ciph.tab

/-- R120: a KEYLOAD starts again from the constant tables: the state it leaves does not depend on the tables, the KEYED
bit or the buffer that earlier commands left. The clause about the tables is R120's for a KEYLOAD that succeeds; of one that
faults R207 gives P and S no value, and there the clause is the model's choice: its free tables are drawn at CIPH's counter
alone (log 7, log 8), which is the same on both sides. -/
def Obligations.RekeyingForgetsTheOldKey : Prop :=
  ∀ (s t : State) (tab : Tables) (keyed : Bool) (cbuf : Memory), exec .keyload s = .next t →
    ∃ t', exec .keyload { s with ciph := { s.ciph with tab := tab, keyed := keyed, cbuf := cbuf } } = .next t' ∧
      t'.ciph.tab = t.ciph.tab ∧ t'.ciph.keyed = t.ciph.keyed ∧ t'.ciph.status = t.ciph.status

/-! ## Both units -/

/-- R206, R201: a CIPH command that answers a next state leaves the unit idle, either DONE with cause 0 or FAULT with
one of the codes 2 to 4, never both. -/
def Obligations.CiphCommandsEndDoneOrFaulted : Prop :=
  ∀ (s t : State) (i : Instr), Instr.isCiph i = true → exec i s = .next t →
    t.ciph.status = { busy := false, done := true, fault := false, cause := 0 } ∨
    ∃ k : BitVec 4, t.ciph.status = { busy := false, done := false, fault := true, cause := k } ∧
      (k = 2 ∨ i = .keyload ∧ k = 3 ∨ i ≠ .keyload ∧ k = 4)

/-- R207, R31, R32, R73: no instruction, faulting or not, changes KBUF, DIN or a length register, and the tokens do not
change ilen. -/
def Obligations.InputsAreNeverWritten : Prop :=
  ∀ (s t : State) (i : Instr), exec i s = .next t →
    t.ciph.kbuf = s.ciph.kbuf ∧ t.ciph.cLen = s.ciph.cLen ∧ t.dcmp.din = s.dcmp.din ∧ t.dcmp.dIlen = s.dcmp.dIlen ∧
      (i ≠ .dstart → t.dcmp.ilen = s.dcmp.ilen ∧ t.dcmp.cur = s.dcmp.cur)

/-- R1, R72, R213: the units share no state: an instruction of one leaves the other as it is, and does the same whatever
the other holds. Of the values the spec leaves open (temporaries, what R207 leaves unspecified after a fault) that equality
is the model's choice: they are drawn at the unit's own counter alone (log 6, log 7, log 8). -/
def Obligations.UnitsShareNoState : Prop :=
  ∀ (s t : State) (i : Instr), exec i s = .next t →
    (Instr.isCiph i = true → t.dcmp = s.dcmp ∧ ∀ d, exec i { s with dcmp := d } = .next { t with dcmp := d }) ∧
    (Instr.isCiph i = false → t.ciph = s.ciph ∧ ∀ c, exec i { s with ciph := c } = .next { t with ciph := c })

/-- R25: between a successful KEYLOAD and the next KEYLOAD or reset no step changes P, S or KEYED: only a step whose host
action writes the code of KEYLOAD to C_CMD, or resets, can. -/
def Obligations.OnlyKeyloadChangesTables : Prop :=
  ∀ s t : State, step s = .next t → (∀ rest, s.hostq ≠ ⟨0, .writeReg .ciph 0 1⟩ :: rest) →
    (∀ rest, s.hostq ≠ ⟨0, .reset⟩ :: rest) → t.ciph.tab = s.ciph.tab ∧ t.ciph.keyed = s.ciph.keyed

/-- R112, R230, R240: no step changes the constant tables or any other parameter. -/
def Obligations.ParametersAreConstant : Prop :=
  ∀ s t : State, step s = .next t → t.cfg = s.cfg

/-- The invariant of Sys2Proof/Safety.lean: the ranges of R26 to R29, buffers canonical and within capacity (R51), the
window written during and after a run (R29, R64), status bits that agree (R206), CIPH idle between steps (R70; log 4). -/
def Obligations.StepKeepsSoundState : Prop :=
  ∀ s t : State, s.Inv → step s = .next t → t.Inv

/-- The state after reset is sound. -/
def Obligations.ResetStateIsSound : Prop := State.reset.Inv

/-! ## Host interface -/

/-- R70, R239, U7: a host's write of a busy unit's command or length register, its write of a byte of KBUF, CBUF or DIN
and its read of a byte of CBUF or DOUT are refused as `busyAccess`. The other accesses to a buffer (a read of KBUF or DIN, a
write of DOUT) are no host access at all, busy or not (`noHostPath`, log 10), and are not spoken of here; register reads
are HostReadsRegisters and BusyOperandRegisterIsNotRead. The CIPH half speaks only of states that no run reaches between
two steps, since a CIPH command is one step (log 4; StepKeepsSoundState). -/
def Obligations.BusyUnitRefusesHost : Prop :=
  ∀ (s : State) (rest : List Pending) (a : Nat) (v : Byte) (w : Word),
    (s.ciph.status.busy = true →
      (∀ act, act = HostAct.writeReg .ciph 0 w ∨ act = .writeReg .ciph 2 w ∨ act = .writeByte .kbuf a v ∨
        act = .writeByte .cbuf a v ∨ act = .readByte .cbuf a →
        step { s with hostq := ⟨0, act⟩ :: rest } = .refused (.busyAccess .ciph))) ∧
    (s.dcmp.status.busy = true →
      (∀ act, act = HostAct.writeReg .dcmp 0 w ∨ act = .writeReg .dcmp 2 w ∨ act = .writeByte .din a v ∨
        act = .readByte .dout a →
        step { s with hostq := ⟨0, act⟩ :: rest } = .refused (.busyAccess .dcmp)))

/-- R31, R32: what a host reads from each register; the command registers read as 0. A length register, the operand of
its unit, is read while the unit is idle; every other register also while it is busy (log 13). -/
def Obligations.HostReadsRegisters : Prop :=
  ∀ (s : State) (rest : List Pending) (u : UnitId) (no : Nat) (w : Word), s.hostq = ⟨0, .readReg u no⟩ :: rest →
    (u = .ciph ∧ no = 0 ∧ w = 0 ∨ u = .ciph ∧ no = 1 ∧ w = cStatus s.ciph ∨
      u = .ciph ∧ no = 2 ∧ s.ciph.status.busy = false ∧ w = s.ciph.cLen ∨
      u = .dcmp ∧ no = 0 ∧ w = 0 ∨ u = .dcmp ∧ no = 1 ∧ w = dStatus s.dcmp ∨
      u = .dcmp ∧ no = 2 ∧ s.dcmp.status.busy = false ∧ w = s.dcmp.dIlen ∨
      u = .dcmp ∧ no = 3 ∧ w = s.dcmp.dOlen ∨ u = .dcmp ∧ no = 4 ∧ w = s.dcmp.dIpos) →
    step s = .next { s with hostq := rest, hostIn := .word w }

/-- R239, D5, U7: a host's read of a busy unit's operand register (C_LEN, D_ILEN) is refused. That the access U7 refuses
includes this read, where R70 names only register writes, is the model's reading (log 13). The CIPH half speaks only of
states that no run reaches between two steps (log 4). -/
def Obligations.BusyOperandRegisterIsNotRead : Prop :=
  ∀ (s : State) (rest : List Pending),
    (s.hostq = ⟨0, .readReg .ciph 2⟩ :: rest → s.ciph.status.busy = true → step s = .refused (.busyAccess .ciph)) ∧
    (s.hostq = ⟨0, .readReg .dcmp 2⟩ :: rest → s.dcmp.status.busy = true → step s = .refused (.busyAccess .dcmp))

/-- R50, R70: a host read of a byte of CBUF or DOUT of an idle unit, below its capacity, always answers: with the byte
there, where one stands; of a byte nothing has written the answer is not spoken of (R37, U6, log 14). Nothing else
changes. -/
def Obligations.HostReadsBytes : Prop :=
  ∀ (s : State) (rest : List Pending) (a : Nat),
    (s.hostq = ⟨0, .readByte .cbuf a⟩ :: rest → s.ciph.status.busy = false → a < s.cfg.cbufCap →
      ∃ b, step s = .next { s with hostq := rest, hostIn := .byte b } ∧
        ∀ v, Memory.read s.ciph.cbuf a = some v → b = v) ∧
    (s.hostq = ⟨0, .readByte .dout a⟩ :: rest → s.dcmp.status.busy = false → (∀ c, s.cfg.doutCap = some c → a < c) →
      ∃ b, step s = .next { s with hostq := rest, hostIn := .byte b } ∧
        ∀ v, Memory.read s.dcmp.dout a = some v → b = v)

/-- R31, R32: the bits of the status words: BUSY, KEYED (0 in D_STATUS), DONE, FAULT, CAUSE, and zeros above. -/
def Obligations.StatusWordBits : Prop :=
  (∀ c : Ciph, (cStatus c).getLsbD 0 = c.status.busy ∧ (cStatus c).getLsbD 1 = c.keyed ∧
    (cStatus c).getLsbD 2 = c.status.done ∧ (cStatus c).getLsbD 3 = c.status.fault ∧
    (cStatus c).extractLsb' 4 4 = c.status.cause ∧ (cStatus c).extractLsb' 8 24 = 0) ∧
  ∀ d : Dcmp, (dStatus d).getLsbD 0 = d.status.busy ∧ (dStatus d).getLsbD 1 = false ∧
    (dStatus d).getLsbD 2 = d.status.done ∧ (dStatus d).getLsbD 3 = d.status.fault ∧
    (dStatus d).extractLsb' 4 4 = d.status.cause ∧ (dStatus d).extractLsb' 8 24 = 0

/-- R31, R32, R50: a host write of a length register or of a byte below capacity does that and nothing else. -/
def Obligations.HostWritesLand : Prop :=
  ∀ (s : State) (rest : List Pending) (a : Nat) (v : Byte) (w : Word),
    (s.ciph.status.busy = false →
      step { s with hostq := ⟨0, .writeReg .ciph 2 w⟩ :: rest } =
        .next { s with hostq := rest, ciph := { s.ciph with cLen := w } } ∧
      (a < s.cfg.kbufCap → ∃ m, step { s with hostq := ⟨0, .writeByte .kbuf a v⟩ :: rest } =
        .next { s with hostq := rest, ciph := { s.ciph with kbuf := m } } ∧
        ∀ x, Memory.read m x = if x = a then some v else Memory.read s.ciph.kbuf x) ∧
      (a < s.cfg.cbufCap → ∃ m, step { s with hostq := ⟨0, .writeByte .cbuf a v⟩ :: rest } =
        .next { s with hostq := rest, ciph := { s.ciph with cbuf := m } } ∧
        ∀ x, Memory.read m x = if x = a then some v else Memory.read s.ciph.cbuf x)) ∧
    (s.dcmp.status.busy = false →
      step { s with hostq := ⟨0, .writeReg .dcmp 2 w⟩ :: rest } =
        .next { s with hostq := rest, dcmp := { s.dcmp with dIlen := w } } ∧
      (a < s.cfg.dinCap → ∃ m, step { s with hostq := ⟨0, .writeByte .din a v⟩ :: rest } =
        .next { s with hostq := rest, dcmp := { s.dcmp with din := m } } ∧
        ∀ x, Memory.read m x = if x = a then some v else Memory.read s.dcmp.din x))

/-- R37, R230, R231: a reset, also during a run, leaves every register the spec gives a reset value at that value and
every buffer without value, with no DONE and no FAULT. -/
def Obligations.ResetGivesResetValues : Prop :=
  ∀ (s : State) (rest : List Pending), s.hostq = ⟨0, .reset⟩ :: rest →
    ∃ t, step s = .next t ∧ t.cfg = s.cfg ∧ t.hostq = rest ∧ t.hostIn = s.hostIn ∧
      t.ciph.keyed = false ∧ cStatus t.ciph = 0 ∧ t.ciph.cLen = 0 ∧
      t.dcmp.cur.ipos = 0 ∧ t.dcmp.cur.bitcnt = 0 ∧ t.dcmp.opos = 0 ∧ t.dcmp.ilen = 0 ∧ dStatus t.dcmp = 0 ∧
      t.dcmp.dIlen = 0 ∧ t.dcmp.dOlen = 0 ∧ t.dcmp.dIpos = 0 ∧
      ∀ a, Memory.read t.ciph.kbuf a = none ∧ Memory.read t.ciph.cbuf a = none ∧ Memory.read t.dcmp.din a = none ∧
        Memory.read t.dcmp.dout a = none

/-! ## Operands -/

/-- R10: sext13 is the two's-complement reading of 13 bits; s8, the byte read as signed, sign-extended to any width, has
the value R10 gives it; and `s8(u) | -0x100` is `u - 256` at every width above 8, which is SCOPY's offset (R90). -/
def Obligations.SignHandling : Prop :=
  (∀ q : BitVec 13, (q.toNat < 4096 → sext13 q = q.toNat) ∧ (4096 ≤ q.toNat → sext13 q = (q.toNat : Int) - 8192) ∧
    sext13 q = q.toInt) ∧
  ∀ (n : Nat) (u : Byte), 8 < n →
    (u.toNat < 128 → (BitVec.signExtend n u).toInt = u.toNat) ∧
    (128 ≤ u.toNat → (BitVec.signExtend n u).toInt = (u.toNat : Int) - 256) ∧
    (BitVec.signExtend n u ||| BitVec.ofInt n (-256)).toInt = (u.toNat : Int) - 256 ∧ shortOffset u = (u.toNat : Int) - 256

/-- R93: the two readings of the long offset agree exactly where the field's top bit is 1; there sext13's lies in
-4096..-1, elsewhere in 0..4095; or_m8192's always lies in -8192..-1. -/
def Obligations.LongOffsetReadings : Prop :=
  ∀ q : BitVec 13, (longOffset .sext13 q = longOffset .orM8192 q ↔ 4096 ≤ q.toNat) ∧
    (4096 ≤ q.toNat → -4096 ≤ longOffset .sext13 q ∧ longOffset .sext13 q ≤ -1) ∧
    (q.toNat < 4096 → 0 ≤ longOffset .sext13 q ∧ longOffset .sext13 q ≤ 4095) ∧
    -8192 ≤ longOffset .orM8192 q ∧ longOffset .orM8192 q ≤ -1
end

