-- ==== Sys2Proof/Laws/Decode.lean ====
section
/-! SUPPORT. Everything the reads of the compressed stream can answer (R61 to R63), and the bounds every read keeps on
the cursor. -/

namespace Sys2Proof

@[simp] theorem Read.andThen_ok {α β : Type} (x : α) (c : Cursor) (k : α → Cursor → Read β) :
    (Read.ok x c).andThen k = k x c := rfl

@[simp] theorem Read.andThen_stop {α β : Type} (r : ReadStop) (c : Cursor) (k : α → Cursor → Read β) :
    (Read.stop r c).andThen k = .stop r c := rfl

/-- The cursor an answer leaves, whether it is a value or a stop. -/
def Read.cursor {α : Type} : Read α → Cursor
  | .ok _ c => c
  | .stop _ c => c

@[simp] theorem Read.cursor_ok {α : Type} (x : α) (c : Cursor) : (Read.ok x c).cursor = c := rfl
@[simp] theorem Read.cursor_stop {α : Type} (r : ReadStop) (c : Cursor) : (Read.stop r c : Read α).cursor = c := rfl

/-- A sequence of reads that succeeds: both succeeded. -/
theorem Read.andThen_eq_ok {α β : Type} {r : Read α} {k : α → Cursor → Read β} {y : β} {c' : Cursor}
    (h : r.andThen k = .ok y c') : ∃ x c, r = .ok x c ∧ k x c = .ok y c' := by
  cases r with
  | ok x c => exact ⟨x, c, rfl, h⟩
  | stop e c => cases h

/-- What every read keeps of the cursor, a sequence of reads keeps. -/
theorem Read.andThen_keeps {α β : Type} {P : Cursor → Prop} {r : Read α} {k : α → Cursor → Read β}
    (hr : P r.cursor) (hk : ∀ x c, P c → P (k x c).cursor) : P (r.andThen k).cursor := by
  cases r with
  | ok x c => exact hk x c hr
  | stop e c => exact hr

/-- Everything GetByte can answer (R62). -/
theorem getByte_cases (st : Stream) (c : Cursor) :
    (st.len ≤ c.ipos ∧ getByte st c = .stop .exhausted c) ∨
    (c.ipos < st.len ∧ st.byteAt c.ipos = none ∧ getByte st c = .stop (.noValue c.ipos) c) ∨
    (c.ipos < st.len ∧ ∃ v, st.byteAt c.ipos = some v ∧ getByte st c = .ok v { c with ipos := c.ipos + 1 }) := by
  unfold getByte
  by_cases h : st.len ≤ c.ipos
  · exact .inl ⟨h, if_pos h⟩
  · rw [if_neg h]
    cases hb : st.byteAt c.ipos with
    | none => exact .inr (.inl ⟨by omega, rfl, rfl⟩)
    | some v => exact .inr (.inr ⟨by omega, v, rfl, rfl⟩)

/-- Everything GetBit can answer (R61). -/
theorem getBit_cases (st : Stream) (c : Cursor) :
    (c.bitcnt ≠ 0 ∧
      getBit st c = .ok (c.bitbuf.getLsbD 0) { c with bitbuf := c.bitbuf >>> 1, bitcnt := c.bitcnt - 1 }) ∨
    (c.bitcnt = 0 ∧ st.len ≤ c.ipos ∧ getBit st c = .stop .exhausted c) ∨
    (c.bitcnt = 0 ∧ c.ipos < st.len ∧ st.byteAt c.ipos = none ∧ getBit st c = .stop (.noValue c.ipos) c) ∨
    (c.bitcnt = 0 ∧ c.ipos < st.len ∧ ∃ v, st.byteAt c.ipos = some v ∧
      getBit st c = .ok (v.getLsbD 0) { ipos := c.ipos + 1, bitbuf := v >>> 1, bitcnt := 7 }) := by
  unfold getBit
  by_cases h : c.bitcnt = 0
  · rw [if_pos h]
    obtain ⟨h1, h2⟩ | ⟨h1, h2, h3⟩ | ⟨h1, v, h2, h3⟩ := getByte_cases st c
    · exact .inr (.inl ⟨h, h1, by rw [h2]; rfl⟩)
    · exact .inr (.inr (.inl ⟨h, h1, h2, by rw [h3]; rfl⟩))
    · exact .inr (.inr (.inr ⟨h, h1, v, h2, by rw [h3]; rfl⟩))
  · rw [if_neg h]
    exact .inl ⟨h, rfl⟩

/-- Everything GetU16LE can answer (R63). -/
theorem getU16_cases (st : Stream) (c : Cursor) :
    (st.len < c.ipos + 2 ∧ getU16 st c = .stop .exhausted c) ∨
    (c.ipos + 2 ≤ st.len ∧ ∃ a, (a = c.ipos ∨ a = c.ipos + 1) ∧ st.byteAt a = none ∧
      getU16 st c = .stop (.noValue a) c) ∨
    (c.ipos + 2 ≤ st.len ∧ ∃ b0 b1, st.byteAt c.ipos = some b0 ∧ st.byteAt (c.ipos + 1) = some b1 ∧
      getU16 st c = .ok (le16 b0 b1) { c with ipos := c.ipos + 2 }) := by
  unfold getU16
  by_cases h : st.len < c.ipos + 2
  · exact .inl ⟨h, if_pos h⟩
  · rw [if_neg h]
    cases h0 : st.byteAt c.ipos with
    | none => exact .inr (.inl ⟨by omega, c.ipos, .inl rfl, h0, rfl⟩)
    | some b0 =>
      cases h1 : st.byteAt (c.ipos + 1) with
      | none => exact .inr (.inl ⟨by omega, c.ipos + 1, .inr rfl, h1, rfl⟩)
      | some b1 => exact .inr (.inr ⟨by omega, b0, b1, rfl, rfl, rfl⟩)

/-- A cursor within a stream (R26, R28), not behind a position already reached. -/
def Cursor.Within (len start : Nat) (c : Cursor) : Prop := start ≤ c.ipos ∧ c.ipos ≤ len ∧ c.bitcnt ≤ 8

theorem getByte_within {st : Stream} {c : Cursor} {n : Nat} (h : c.Within st.len n) :
    (getByte st c).cursor.Within st.len n := by
  obtain ⟨_, e⟩ | ⟨_, _, e⟩ | ⟨hl, v, _, e⟩ := getByte_cases st c <;> rw [e]
  · exact h
  · exact h
  · exact ⟨Nat.le_succ_of_le h.1, hl, h.2.2⟩

theorem getBit_within {st : Stream} {c : Cursor} {n : Nat} (h : c.Within st.len n) :
    (getBit st c).cursor.Within st.len n := by
  obtain ⟨_, e⟩ | ⟨_, _, e⟩ | ⟨_, _, _, e⟩ | ⟨_, hl, v, _, e⟩ := getBit_cases st c <;> rw [e]
  · exact ⟨h.1, h.2.1, Nat.le_trans (Nat.sub_le _ _) h.2.2⟩
  · exact h
  · exact h
  · exact ⟨Nat.le_succ_of_le h.1, hl, by simp⟩

theorem getU16_within {st : Stream} {c : Cursor} {n : Nat} (h : c.Within st.len n) :
    (getU16 st c).cursor.Within st.len n := by
  obtain ⟨_, e⟩ | ⟨_, a, _, _, e⟩ | ⟨hl, b0, b1, _, _, e⟩ := getU16_cases st c <;> rw [e]
  · exact h
  · exact h
  · exact ⟨Nat.le_add_right_of_le h.1, hl, h.2.2⟩

/-- A token fetch keeps the cursor within the stream and never moves it back, whether it succeeds or stops. -/
theorem decodeToken_within {st : Stream} {c : Cursor} {n : Nat} (h : c.Within st.len n) :
    (decodeToken st c).cursor.Within st.len n := by
  refine Read.andThen_keeps (getBit_within h) fun c0 d hd => ?_
  cases c0 with
  | true => exact Read.andThen_keeps (getByte_within hd) fun _ _ h' => h'
  | false =>
    refine Read.andThen_keeps (getBit_within hd) fun c1 d1 hd1 => ?_
    cases c1 with
    | true =>
      refine Read.andThen_keeps (getU16_within hd1) fun f e he => ?_
      split
      · exact he
      · split
        · exact Read.andThen_keeps (getByte_within he) fun _ _ h' => h'
        · exact he
    | false =>
      refine Read.andThen_keeps (getBit_within hd1) fun a e he => ?_
      refine Read.andThen_keeps (getBit_within he) fun b e1 he1 => ?_
      exact Read.andThen_keeps (getByte_within he1) fun _ _ h' => h'

end Sys2Proof
end

