-- ==== Sys2Proof/Laws/State.lean ====
section
/-! SUPPORT. One lemma per field per named update of the state, each true by rfl, so that no later proof unfolds a
record update. -/

namespace Sys2Proof.Machine

/-! ## Status -/

@[simp] theorem Status.accept_busy (st : Status) : st.accept.busy = st.busy := rfl
@[simp] theorem Status.accept_done (st : Status) : st.accept.done = false := rfl
@[simp] theorem Status.accept_fault (st : Status) : st.accept.fault = false := rfl
@[simp] theorem Status.accept_cause (st : Status) : st.accept.cause = 0 := rfl
@[simp] theorem Status.start_busy (st : Status) : st.start.busy = true := rfl
@[simp] theorem Status.start_done (st : Status) : st.start.done = false := rfl
@[simp] theorem Status.start_fault (st : Status) : st.start.fault = false := rfl
@[simp] theorem Status.start_cause (st : Status) : st.start.cause = 0 := rfl
@[simp] theorem Status.halt_busy (st : Status) : st.halt.busy = false := rfl
@[simp] theorem Status.halt_done (st : Status) : st.halt.done = true := rfl
@[simp] theorem Status.halt_fault (st : Status) : st.halt.fault = st.fault := rfl
@[simp] theorem Status.halt_cause (st : Status) : st.halt.cause = st.cause := rfl
@[simp] theorem Status.raise_busy (st : Status) (k : BitVec 4) : (st.raise k).busy = false := rfl
@[simp] theorem Status.raise_done (st : Status) (k : BitVec 4) : (st.raise k).done = st.done := rfl
@[simp] theorem Status.raise_fault (st : Status) (k : BitVec 4) : (st.raise k).fault = true := rfl
@[simp] theorem Status.raise_cause (st : Status) (k : BitVec 4) : (st.raise k).cause = k := rfl

/-! ## State.setWin -/

@[simp] theorem State.setWin_cfg (s : State) (w : Win) : (s.setWin w).cfg = s.cfg := rfl
@[simp] theorem State.setWin_ciph (s : State) (w : Win) : (s.setWin w).ciph = s.ciph := rfl
@[simp] theorem State.setWin_dcmp_cur (s : State) (w : Win) : (s.setWin w).dcmp.cur = s.dcmp.cur := rfl
@[simp] theorem State.setWin_dcmp_ilen (s : State) (w : Win) : (s.setWin w).dcmp.ilen = s.dcmp.ilen := rfl
@[simp] theorem State.setWin_dcmp_opos (s : State) (w : Win) : (s.setWin w).dcmp.opos = w.opos := rfl
@[simp] theorem State.setWin_dcmp_temps (s : State) (w : Win) : (s.setWin w).dcmp.temps = s.dcmp.temps := rfl
@[simp] theorem State.setWin_dcmp_status (s : State) (w : Win) : (s.setWin w).dcmp.status = s.dcmp.status := rfl
@[simp] theorem State.setWin_dcmp_dIlen (s : State) (w : Win) : (s.setWin w).dcmp.dIlen = s.dcmp.dIlen := rfl
@[simp] theorem State.setWin_dcmp_dOlen (s : State) (w : Win) : (s.setWin w).dcmp.dOlen = s.dcmp.dOlen := rfl
@[simp] theorem State.setWin_dcmp_dIpos (s : State) (w : Win) : (s.setWin w).dcmp.dIpos = s.dcmp.dIpos := rfl
@[simp] theorem State.setWin_dcmp_din (s : State) (w : Win) : (s.setWin w).dcmp.din = s.dcmp.din := rfl
@[simp] theorem State.setWin_dcmp_dout (s : State) (w : Win) : (s.setWin w).dcmp.dout = w.dout := rfl
@[simp] theorem State.setWin_dcmp_free (s : State) (w : Win) : (s.setWin w).dcmp.free = s.dcmp.free := rfl
@[simp] theorem State.setWin_hostq (s : State) (w : Win) : (s.setWin w).hostq = s.hostq := rfl
@[simp] theorem State.setWin_hostIn (s : State) (w : Win) : (s.setWin w).hostIn = s.hostIn := rfl

/-! ## State.setCursor -/

@[simp] theorem State.setCursor_cfg (s : State) (c : Cursor) : (s.setCursor c).cfg = s.cfg := rfl
@[simp] theorem State.setCursor_ciph (s : State) (c : Cursor) : (s.setCursor c).ciph = s.ciph := rfl
@[simp] theorem State.setCursor_dcmp_cur (s : State) (c : Cursor) : (s.setCursor c).dcmp.cur = c := rfl
@[simp] theorem State.setCursor_dcmp_ilen (s : State) (c : Cursor) : (s.setCursor c).dcmp.ilen = s.dcmp.ilen := rfl
@[simp] theorem State.setCursor_dcmp_opos (s : State) (c : Cursor) : (s.setCursor c).dcmp.opos = s.dcmp.opos := rfl
@[simp] theorem State.setCursor_dcmp_temps (s : State) (c : Cursor) : (s.setCursor c).dcmp.temps = s.dcmp.temps := rfl
@[simp] theorem State.setCursor_dcmp_status (s : State) (c : Cursor) : (s.setCursor c).dcmp.status = s.dcmp.status := rfl
@[simp] theorem State.setCursor_dcmp_dIlen (s : State) (c : Cursor) : (s.setCursor c).dcmp.dIlen = s.dcmp.dIlen := rfl
@[simp] theorem State.setCursor_dcmp_dOlen (s : State) (c : Cursor) : (s.setCursor c).dcmp.dOlen = s.dcmp.dOlen := rfl
@[simp] theorem State.setCursor_dcmp_dIpos (s : State) (c : Cursor) : (s.setCursor c).dcmp.dIpos = s.dcmp.dIpos := rfl
@[simp] theorem State.setCursor_dcmp_din (s : State) (c : Cursor) : (s.setCursor c).dcmp.din = s.dcmp.din := rfl
@[simp] theorem State.setCursor_dcmp_dout (s : State) (c : Cursor) : (s.setCursor c).dcmp.dout = s.dcmp.dout := rfl
@[simp] theorem State.setCursor_dcmp_free (s : State) (c : Cursor) : (s.setCursor c).dcmp.free = s.dcmp.free := rfl
@[simp] theorem State.setCursor_hostq (s : State) (c : Cursor) : (s.setCursor c).hostq = s.hostq := rfl
@[simp] theorem State.setCursor_hostIn (s : State) (c : Cursor) : (s.setCursor c).hostIn = s.hostIn := rfl

/-! ## startC -/

@[simp] theorem startC_cfg (s : State) : (startC s).cfg = s.cfg := rfl
@[simp] theorem startC_ciph_tab (s : State) : (startC s).ciph.tab = s.ciph.tab := rfl
@[simp] theorem startC_ciph_keyed (s : State) : (startC s).ciph.keyed = s.ciph.keyed := rfl
@[simp] theorem startC_ciph_temps (s : State) : (startC s).ciph.temps = s.ciph.temps := rfl
@[simp] theorem startC_ciph_status (s : State) : (startC s).ciph.status = s.ciph.status.start := rfl
@[simp] theorem startC_ciph_cLen (s : State) : (startC s).ciph.cLen = s.ciph.cLen := rfl
@[simp] theorem startC_ciph_kbuf (s : State) : (startC s).ciph.kbuf = s.ciph.kbuf := rfl
@[simp] theorem startC_ciph_cbuf (s : State) : (startC s).ciph.cbuf = s.ciph.cbuf := rfl
@[simp] theorem startC_ciph_free (s : State) : (startC s).ciph.free = s.ciph.free := rfl
@[simp] theorem startC_dcmp (s : State) : (startC s).dcmp = s.dcmp := rfl
@[simp] theorem startC_hostq (s : State) : (startC s).hostq = s.hostq := rfl
@[simp] theorem startC_hostIn (s : State) : (startC s).hostIn = s.hostIn := rfl

/-! ## haltC -/

@[simp] theorem haltC_cfg (s : State) : (haltC s).cfg = s.cfg := rfl
@[simp] theorem haltC_ciph_tab (s : State) : (haltC s).ciph.tab = s.ciph.tab := rfl
@[simp] theorem haltC_ciph_keyed (s : State) : (haltC s).ciph.keyed = s.ciph.keyed := rfl
@[simp] theorem haltC_ciph_temps (s : State) : (haltC s).ciph.temps = freeHalves s.ciph.free s.ciph.temps := rfl
@[simp] theorem haltC_ciph_status (s : State) : (haltC s).ciph.status = s.ciph.status.halt := rfl
@[simp] theorem haltC_ciph_cLen (s : State) : (haltC s).ciph.cLen = s.ciph.cLen := rfl
@[simp] theorem haltC_ciph_kbuf (s : State) : (haltC s).ciph.kbuf = s.ciph.kbuf := rfl
@[simp] theorem haltC_ciph_cbuf (s : State) : (haltC s).ciph.cbuf = s.ciph.cbuf := rfl
@[simp] theorem haltC_ciph_free (s : State) : (haltC s).ciph.free = s.ciph.free + 1 := rfl
@[simp] theorem haltC_dcmp (s : State) : (haltC s).dcmp = s.dcmp := rfl
@[simp] theorem haltC_hostq (s : State) : (haltC s).hostq = s.hostq := rfl
@[simp] theorem haltC_hostIn (s : State) : (haltC s).hostIn = s.hostIn := rfl

/-! ## startD -/

@[simp] theorem startD_cfg (s : State) : (startD s).cfg = s.cfg := rfl
@[simp] theorem startD_ciph (s : State) : (startD s).ciph = s.ciph := rfl
@[simp] theorem startD_dcmp_cur (s : State) : (startD s).dcmp.cur = s.dcmp.cur := rfl
@[simp] theorem startD_dcmp_ilen (s : State) : (startD s).dcmp.ilen = s.dcmp.ilen := rfl
@[simp] theorem startD_dcmp_opos (s : State) : (startD s).dcmp.opos = s.dcmp.opos := rfl
@[simp] theorem startD_dcmp_temps (s : State) : (startD s).dcmp.temps = s.dcmp.temps := rfl
@[simp] theorem startD_dcmp_status (s : State) : (startD s).dcmp.status = s.dcmp.status.start := rfl
@[simp] theorem startD_dcmp_dIlen (s : State) : (startD s).dcmp.dIlen = s.dcmp.dIlen := rfl
@[simp] theorem startD_dcmp_dOlen (s : State) : (startD s).dcmp.dOlen = Config.freeWord s.dcmp.free 2 := rfl
@[simp] theorem startD_dcmp_dIpos (s : State) : (startD s).dcmp.dIpos = Config.freeWord s.dcmp.free 3 := rfl
@[simp] theorem startD_dcmp_din (s : State) : (startD s).dcmp.din = s.dcmp.din := rfl
@[simp] theorem startD_dcmp_dout (s : State) : (startD s).dcmp.dout = s.dcmp.dout := rfl
@[simp] theorem startD_dcmp_free (s : State) : (startD s).dcmp.free = s.dcmp.free + 1 := rfl
@[simp] theorem startD_hostq (s : State) : (startD s).hostq = s.hostq := rfl
@[simp] theorem startD_hostIn (s : State) : (startD s).hostIn = s.hostIn := rfl

/-! ## endToken -/

@[simp] theorem endToken_cfg (s : State) : (endToken s).cfg = s.cfg := rfl
@[simp] theorem endToken_ciph (s : State) : (endToken s).ciph = s.ciph := rfl
@[simp] theorem endToken_dcmp_cur (s : State) : (endToken s).dcmp.cur = s.dcmp.cur := rfl
@[simp] theorem endToken_dcmp_ilen (s : State) : (endToken s).dcmp.ilen = s.dcmp.ilen := rfl
@[simp] theorem endToken_dcmp_opos (s : State) : (endToken s).dcmp.opos = s.dcmp.opos := rfl
@[simp] theorem endToken_dcmp_temps (s : State) : (endToken s).dcmp.temps = freeDcmpTemps s.dcmp.free := rfl
@[simp] theorem endToken_dcmp_status (s : State) : (endToken s).dcmp.status = s.dcmp.status := rfl
@[simp] theorem endToken_dcmp_dIlen (s : State) : (endToken s).dcmp.dIlen = s.dcmp.dIlen := rfl
@[simp] theorem endToken_dcmp_dOlen (s : State) : (endToken s).dcmp.dOlen = s.dcmp.dOlen := rfl
@[simp] theorem endToken_dcmp_dIpos (s : State) : (endToken s).dcmp.dIpos = s.dcmp.dIpos := rfl
@[simp] theorem endToken_dcmp_din (s : State) : (endToken s).dcmp.din = s.dcmp.din := rfl
@[simp] theorem endToken_dcmp_dout (s : State) : (endToken s).dcmp.dout = s.dcmp.dout := rfl
@[simp] theorem endToken_dcmp_free (s : State) : (endToken s).dcmp.free = s.dcmp.free + 1 := rfl
@[simp] theorem endToken_hostq (s : State) : (endToken s).hostq = s.hostq := rfl
@[simp] theorem endToken_hostIn (s : State) : (endToken s).hostIn = s.hostIn := rfl

/-! ## haltD -/

@[simp] theorem haltD_cfg (s : State) : (haltD s).cfg = s.cfg := rfl
@[simp] theorem haltD_ciph (s : State) : (haltD s).ciph = s.ciph := rfl
@[simp] theorem haltD_dcmp_cur (s : State) : (haltD s).dcmp.cur = s.dcmp.cur := rfl
@[simp] theorem haltD_dcmp_ilen (s : State) : (haltD s).dcmp.ilen = s.dcmp.ilen := rfl
@[simp] theorem haltD_dcmp_opos (s : State) : (haltD s).dcmp.opos = s.dcmp.opos := rfl
@[simp] theorem haltD_dcmp_temps (s : State) : (haltD s).dcmp.temps = s.dcmp.temps := rfl
@[simp] theorem haltD_dcmp_status (s : State) : (haltD s).dcmp.status = s.dcmp.status.halt := rfl
@[simp] theorem haltD_dcmp_dIlen (s : State) : (haltD s).dcmp.dIlen = s.dcmp.dIlen := rfl
@[simp] theorem haltD_dcmp_dOlen (s : State) : (haltD s).dcmp.dOlen = s.dcmp.dOlen := rfl
@[simp] theorem haltD_dcmp_dIpos (s : State) : (haltD s).dcmp.dIpos = s.dcmp.dIpos := rfl
@[simp] theorem haltD_dcmp_din (s : State) : (haltD s).dcmp.din = s.dcmp.din := rfl
@[simp] theorem haltD_dcmp_dout (s : State) : (haltD s).dcmp.dout = s.dcmp.dout := rfl
@[simp] theorem haltD_dcmp_free (s : State) : (haltD s).dcmp.free = s.dcmp.free := rfl
@[simp] theorem haltD_hostq (s : State) : (haltD s).hostq = s.hostq := rfl
@[simp] theorem haltD_hostIn (s : State) : (haltD s).hostIn = s.hostIn := rfl

/-! ## raiseC -/

@[simp] theorem raiseC_cfg (c : CCause) (s : State) : (raiseC c s).cfg = s.cfg := rfl
@[simp] theorem raiseC_ciph_tab (c : CCause) (s : State) : (raiseC c s).ciph.tab = s.ciph.tab := rfl
@[simp] theorem raiseC_ciph_keyed (c : CCause) (s : State) : (raiseC c s).ciph.keyed = s.ciph.keyed := rfl
@[simp] theorem raiseC_ciph_temps (c : CCause) (s : State) : (raiseC c s).ciph.temps = freeHalves s.ciph.free s.ciph.temps := rfl
@[simp] theorem raiseC_ciph_status (c : CCause) (s : State) : (raiseC c s).ciph.status = s.ciph.status.raise c.code := rfl
@[simp] theorem raiseC_ciph_cLen (c : CCause) (s : State) : (raiseC c s).ciph.cLen = s.ciph.cLen := rfl
@[simp] theorem raiseC_ciph_kbuf (c : CCause) (s : State) : (raiseC c s).ciph.kbuf = s.ciph.kbuf := rfl
@[simp] theorem raiseC_ciph_cbuf (c : CCause) (s : State) : (raiseC c s).ciph.cbuf = s.ciph.cbuf := rfl
@[simp] theorem raiseC_ciph_free (c : CCause) (s : State) : (raiseC c s).ciph.free = s.ciph.free + 1 := rfl
@[simp] theorem raiseC_dcmp (c : CCause) (s : State) : (raiseC c s).dcmp = s.dcmp := rfl
@[simp] theorem raiseC_hostq (c : CCause) (s : State) : (raiseC c s).hostq = s.hostq := rfl
@[simp] theorem raiseC_hostIn (c : CCause) (s : State) : (raiseC c s).hostIn = s.hostIn := rfl

/-! ## raiseKeyload -/

@[simp] theorem raiseKeyload_cfg (c : CCause) (s : State) : (raiseKeyload c s).cfg = s.cfg := rfl
@[simp] theorem raiseKeyload_ciph_tab (c : CCause) (s : State) : (raiseKeyload c s).ciph.tab = Config.freeTables s.ciph.free := rfl
@[simp] theorem raiseKeyload_ciph_keyed (c : CCause) (s : State) : (raiseKeyload c s).ciph.keyed = s.ciph.keyed := rfl
@[simp] theorem raiseKeyload_ciph_temps (c : CCause) (s : State) : (raiseKeyload c s).ciph.temps = freeCiphTemps s.ciph.free := rfl
@[simp] theorem raiseKeyload_ciph_status (c : CCause) (s : State) : (raiseKeyload c s).ciph.status = s.ciph.status.raise c.code := rfl
@[simp] theorem raiseKeyload_ciph_cLen (c : CCause) (s : State) : (raiseKeyload c s).ciph.cLen = s.ciph.cLen := rfl
@[simp] theorem raiseKeyload_ciph_kbuf (c : CCause) (s : State) : (raiseKeyload c s).ciph.kbuf = s.ciph.kbuf := rfl
@[simp] theorem raiseKeyload_ciph_cbuf (c : CCause) (s : State) : (raiseKeyload c s).ciph.cbuf = s.ciph.cbuf := rfl
@[simp] theorem raiseKeyload_ciph_free (c : CCause) (s : State) : (raiseKeyload c s).ciph.free = s.ciph.free + 1 := rfl
@[simp] theorem raiseKeyload_dcmp (c : CCause) (s : State) : (raiseKeyload c s).dcmp = s.dcmp := rfl
@[simp] theorem raiseKeyload_hostq (c : CCause) (s : State) : (raiseKeyload c s).hostq = s.hostq := rfl
@[simp] theorem raiseKeyload_hostIn (c : CCause) (s : State) : (raiseKeyload c s).hostIn = s.hostIn := rfl

/-! ## raiseD -/

@[simp] theorem raiseD_cfg (c : DCause) (s : State) : (raiseD c s).cfg = s.cfg := rfl
@[simp] theorem raiseD_ciph (c : DCause) (s : State) : (raiseD c s).ciph = s.ciph := rfl
@[simp] theorem raiseD_dcmp_cur (c : DCause) (s : State) : (raiseD c s).dcmp.cur = s.dcmp.cur := rfl
@[simp] theorem raiseD_dcmp_ilen (c : DCause) (s : State) : (raiseD c s).dcmp.ilen = s.dcmp.ilen := rfl
@[simp] theorem raiseD_dcmp_opos (c : DCause) (s : State) : (raiseD c s).dcmp.opos = freeOpos s.cfg.doutCap s.dcmp.free := rfl
@[simp] theorem raiseD_dcmp_temps (c : DCause) (s : State) : (raiseD c s).dcmp.temps = freeDcmpTemps s.dcmp.free := rfl
@[simp] theorem raiseD_dcmp_status (c : DCause) (s : State) : (raiseD c s).dcmp.status = s.dcmp.status.raise c.code := rfl
@[simp] theorem raiseD_dcmp_dIlen (c : DCause) (s : State) : (raiseD c s).dcmp.dIlen = s.dcmp.dIlen := rfl
@[simp] theorem raiseD_dcmp_dOlen (c : DCause) (s : State) : (raiseD c s).dcmp.dOlen = Config.freeWord s.dcmp.free 2 := rfl
@[simp] theorem raiseD_dcmp_dIpos (c : DCause) (s : State) : (raiseD c s).dcmp.dIpos = Config.freeWord s.dcmp.free 3 := rfl
@[simp] theorem raiseD_dcmp_din (c : DCause) (s : State) : (raiseD c s).dcmp.din = s.dcmp.din := rfl
@[simp] theorem raiseD_dcmp_dout (c : DCause) (s : State) : (raiseD c s).dcmp.dout = freeDout s.cfg.doutCap s.dcmp.free := rfl
@[simp] theorem raiseD_dcmp_free (c : DCause) (s : State) : (raiseD c s).dcmp.free = s.dcmp.free + 1 := rfl
@[simp] theorem raiseD_hostq (c : DCause) (s : State) : (raiseD c s).hostq = s.hostq := rfl
@[simp] theorem raiseD_hostIn (c : DCause) (s : State) : (raiseD c s).hostIn = s.hostIn := rfl

/-! ## illegalC -/

@[simp] theorem illegalC_cfg (s : State) : (illegalC s).cfg = s.cfg := rfl
@[simp] theorem illegalC_ciph_tab (s : State) : (illegalC s).ciph.tab = s.ciph.tab := rfl
@[simp] theorem illegalC_ciph_keyed (s : State) : (illegalC s).ciph.keyed = s.ciph.keyed := rfl
@[simp] theorem illegalC_ciph_temps (s : State) : (illegalC s).ciph.temps = s.ciph.temps := rfl
@[simp] theorem illegalC_ciph_status (s : State) : (illegalC s).ciph.status = s.ciph.status.accept.raise CCause.illegalCommand.code := rfl
@[simp] theorem illegalC_ciph_cLen (s : State) : (illegalC s).ciph.cLen = s.ciph.cLen := rfl
@[simp] theorem illegalC_ciph_kbuf (s : State) : (illegalC s).ciph.kbuf = s.ciph.kbuf := rfl
@[simp] theorem illegalC_ciph_cbuf (s : State) : (illegalC s).ciph.cbuf = s.ciph.cbuf := rfl
@[simp] theorem illegalC_ciph_free (s : State) : (illegalC s).ciph.free = s.ciph.free := rfl
@[simp] theorem illegalC_dcmp (s : State) : (illegalC s).dcmp = s.dcmp := rfl
@[simp] theorem illegalC_hostq (s : State) : (illegalC s).hostq = s.hostq := rfl
@[simp] theorem illegalC_hostIn (s : State) : (illegalC s).hostIn = s.hostIn := rfl

/-! ## illegalD -/

@[simp] theorem illegalD_cfg (s : State) : (illegalD s).cfg = s.cfg := rfl
@[simp] theorem illegalD_ciph (s : State) : (illegalD s).ciph = s.ciph := rfl
@[simp] theorem illegalD_dcmp_cur (s : State) : (illegalD s).dcmp.cur = s.dcmp.cur := rfl
@[simp] theorem illegalD_dcmp_ilen (s : State) : (illegalD s).dcmp.ilen = s.dcmp.ilen := rfl
@[simp] theorem illegalD_dcmp_opos (s : State) : (illegalD s).dcmp.opos = s.dcmp.opos := rfl
@[simp] theorem illegalD_dcmp_temps (s : State) : (illegalD s).dcmp.temps = s.dcmp.temps := rfl
@[simp] theorem illegalD_dcmp_status (s : State) : (illegalD s).dcmp.status = s.dcmp.status.accept.raise DCause.illegalCommand.code := rfl
@[simp] theorem illegalD_dcmp_dIlen (s : State) : (illegalD s).dcmp.dIlen = s.dcmp.dIlen := rfl
@[simp] theorem illegalD_dcmp_dOlen (s : State) : (illegalD s).dcmp.dOlen = s.dcmp.dOlen := rfl
@[simp] theorem illegalD_dcmp_dIpos (s : State) : (illegalD s).dcmp.dIpos = s.dcmp.dIpos := rfl
@[simp] theorem illegalD_dcmp_din (s : State) : (illegalD s).dcmp.din = s.dcmp.din := rfl
@[simp] theorem illegalD_dcmp_dout (s : State) : (illegalD s).dcmp.dout = s.dcmp.dout := rfl
@[simp] theorem illegalD_dcmp_free (s : State) : (illegalD s).dcmp.free = s.dcmp.free := rfl
@[simp] theorem illegalD_hostq (s : State) : (illegalD s).hostq = s.hostq := rfl
@[simp] theorem illegalD_hostIn (s : State) : (illegalD s).hostIn = s.hostIn := rfl

/-! ## State.win -/

@[simp] theorem State.win_opos (s : State) : s.win.opos = s.dcmp.opos := rfl
@[simp] theorem State.win_dout (s : State) : s.win.dout = s.dcmp.dout := rfl
@[simp] theorem State.setCursor_win (s : State) (c : Cursor) : (s.setCursor c).win = s.win := rfl

/-! ## Parameters -/

@[simp] theorem ksDecided_chain : KsReading.decided.chain = true := rfl
@[simp] theorem ksDecided_words : KsReading.decided.words = .leInOrder := rfl
@[simp] theorem ksDecided_order : KsReading.decided.order = .boxByBox := rfl

end Sys2Proof.Machine
end

