-- ==== Sys2Proof/Laws/Memory.lean ====
section
/-! SUPPORT. The laws of buffers: a read after a write, the canonical form and the capacity bound are kept by every
memory operation, and what runs of writes and block accesses do. -/

namespace Sys2Proof.Machine

@[simp] theorem Memory.read_nil (a : Nat) : Memory.read [] a = none := rfl

/-- A read after a write: the written byte at its address, the old byte everywhere else. -/
theorem Memory.read_write (m : Memory) (a : Nat) (v : Byte) (x : Nat) :
    Memory.read (Memory.write m a v) x = if x = a then some v else Memory.read m x := by
  induction m with
  | nil => simp [Memory.write, Memory.read]
  | cons c m ih =>
    obtain ⟨k, w⟩ := c
    simp only [Memory.write]
    split
    · simp only [Memory.read]
    · split
      · subst_vars
        simp only [Memory.read]
        split <;> simp
      · simp only [Memory.read, ih]
        split <;> split <;> simp_all

@[simp] theorem Memory.read_write_self (m : Memory) (a : Nat) (v : Byte) :
    Memory.read (Memory.write m a v) a = some v := by
  simp [Memory.read_write]

theorem Memory.read_write_of_ne (m : Memory) {a x : Nat} (v : Byte) (h : x ≠ a) :
    Memory.read (Memory.write m a v) x = Memory.read m x := by
  simp [Memory.read_write, h]

/-- The addresses of a buffer after a write: the old ones and the written one. -/
theorem Memory.mem_write (m : Memory) (a : Nat) (v : Byte) (c : Host.Cell) (h : c ∈ Memory.write m a v) :
    c = (a, v) ∨ c ∈ m := by
  induction m with
  | nil => simpa [Memory.write] using h
  | cons d m ih =>
    obtain ⟨k, w⟩ := d
    simp only [Memory.write] at h
    split at h
    · simpa using h
    · split at h
      · rcases List.mem_cons.1 h with h | h
        · exact .inl h
        · exact .inr (List.mem_cons_of_mem _ h)
      · rcases List.mem_cons.1 h with h | h
        · exact .inr (h ▸ List.mem_cons_self)
        · exact (ih h).imp id (List.mem_cons_of_mem _)

/-- A write keeps the canonical form. -/
theorem Memory.write_wf (m : Memory) (a : Nat) (v : Byte) (h : Memory.wf m) : Memory.wf (Memory.write m a v) := by
  induction m with
  | nil => simp [Memory.write, Memory.wf]
  | cons d m ih =>
    obtain ⟨k, w⟩ := d
    obtain ⟨hk, hm⟩ := List.pairwise_cons.1 h
    simp only [Memory.write]
    split
    · rename_i hlt
      refine List.pairwise_cons.2 ⟨fun c hc => ?_, h⟩
      rcases List.mem_cons.1 hc with rfl | hc
      · exact hlt
      · exact Nat.lt_trans hlt (hk c hc)
    · split
      · rename_i heq
        exact List.pairwise_cons.2 ⟨fun c hc => heq ▸ hk c hc, hm⟩
      · refine List.pairwise_cons.2 ⟨fun c hc => ?_, ih hm⟩
        rcases Memory.mem_write m a v c hc with rfl | hc
        · show k < a
          omega
        · exact hk c hc

/-- A write below a capacity keeps the capacity bound. -/
theorem Memory.write_below {m : Memory} {a cap : Nat} (v : Byte) (h : Memory.below m cap) (ha : a < cap) :
    Memory.below (Memory.write m a v) cap := by
  intro c hc
  rcases Memory.mem_write m a v c hc with rfl | hc
  · exact ha
  · exact h c hc

/-- A write below the capacity keeps a buffer sound. -/
theorem Memory.write_sound {m : Memory} {a cap : Nat} (v : Byte) (h : Memory.Sound m cap) (ha : a < cap) :
    Memory.Sound (Memory.write m a v) cap :=
  ⟨Memory.write_wf m a v h.1, Memory.write_below v h.2 ha⟩

/-- A byte that reads as a value is listed. -/
theorem Memory.mem_of_read {m : Memory} {a : Nat} {v : Byte} (h : Memory.read m a = some v) : (a, v) ∈ m := by
  induction m with
  | nil => simp at h
  | cons d m ih =>
    obtain ⟨k, w⟩ := d
    simp only [Memory.read] at h
    split at h
    · simp_all
    · exact List.mem_cons_of_mem _ (ih h)

/-- Nothing at or above the capacity has a value. -/
theorem Memory.read_of_below {m : Memory} {cap a : Nat} (h : Memory.below m cap) (ha : cap ≤ a) :
    Memory.read m a = none := by
  cases hr : Memory.read m a with
  | none => rfl
  | some v => exact absurd (h _ (Memory.mem_of_read hr)) (Nat.not_lt.2 ha)

/-! ## Runs of bytes -/

theorem Memory.ofBytes_ge (a : Nat) (bs : List Byte) : ∀ c ∈ Memory.ofBytes a bs, a ≤ c.1 := by
  induction bs generalizing a with
  | nil => simp [Memory.ofBytes]
  | cons b bs ih =>
    intro c hc
    rcases List.mem_cons.1 hc with rfl | hc
    · exact Nat.le_refl _
    · exact Nat.le_of_succ_le (ih (a + 1) c hc)

theorem Memory.ofBytes_wf (a : Nat) (bs : List Byte) : Memory.wf (Memory.ofBytes a bs) := by
  induction bs generalizing a with
  | nil => simp [Memory.ofBytes, Memory.wf]
  | cons b bs ih => exact List.pairwise_cons.2 ⟨fun c hc => Memory.ofBytes_ge (a + 1) bs c hc, ih (a + 1)⟩

theorem Memory.ofBytes_below (a : Nat) (bs : List Byte) : Memory.below (Memory.ofBytes a bs) (a + bs.length) := by
  induction bs generalizing a with
  | nil => simp [Memory.ofBytes, Memory.below]
  | cons b bs ih =>
    intro c hc
    rcases List.mem_cons.1 hc with rfl | hc
    · simp
    · have := ih (a + 1) c hc
      simp only [List.length_cons]
      omega

/-- What a run of writes leaves at each address. -/
theorem Memory.read_writeAll (m : Memory) (a : Nat) (bs : List Byte) (x : Nat) :
    Memory.read (Memory.writeAll m a bs) x =
      if a ≤ x ∧ x < a + bs.length then bs[x - a]? else Memory.read m x := by
  induction bs generalizing m a with
  | nil => simp [Memory.writeAll]
  | cons b bs ih =>
    simp only [Memory.writeAll, ih, Memory.read_write, List.length_cons]
    by_cases h1 : x = a
    · subst h1
      simp
    · by_cases h2 : a + 1 ≤ x ∧ x < a + 1 + bs.length
      · have hx : x - a = (x - (a + 1)) + 1 := by omega
        rw [if_pos h2, if_pos (by omega), hx, List.getElem?_cons_succ]
      · rw [if_neg h2, if_neg h1, if_neg (by omega)]

theorem Memory.writeAll_wf (m : Memory) (a : Nat) (bs : List Byte) (h : Memory.wf m) :
    Memory.wf (Memory.writeAll m a bs) := by
  induction bs generalizing m a with
  | nil => exact h
  | cons b bs ih => exact ih _ _ (Memory.write_wf m a b h)

theorem Memory.writeAll_below {m : Memory} {a cap : Nat} (bs : List Byte) (h : Memory.below m cap)
    (ha : a + bs.length ≤ cap) : Memory.below (Memory.writeAll m a bs) cap := by
  induction bs generalizing m a with
  | nil => exact h
  | cons b bs ih =>
    simp only [List.length_cons] at ha
    exact ih (Memory.write_below b h (by omega)) (by omega)

/-! ## Bytes a command needs -/

theorem Memory.need_eq_ok {m : Memory} {a : Nat} {v : Byte} : Memory.need m a = .ok v ↔ Memory.read m a = some v := by
  unfold Memory.need
  split <;> simp_all

theorem Memory.need_eq_error {m : Memory} {a e : Nat} :
    Memory.need m a = .error e ↔ Memory.read m a = none ∧ a = e := by
  unfold Memory.need
  split <;> simp_all

@[simp] theorem except_ok_bind {ε α β : Type} (x : α) (f : α → Except ε β) : (Except.ok x >>= f) = f x := rfl
@[simp] theorem except_error_bind {ε α β : Type} (e : ε) (f : α → Except ε β) :
    (Except.error e >>= f) = Except.error e := rfl

/-- The eight bytes of a block, as a reader gives them. -/
def blockOf (g : Nat → Byte) (a : Nat) : Block :=
  #v[g a, g (a + 1), g (a + 2), g (a + 3), g (a + 4), g (a + 5), g (a + 6), g (a + 7)]

/-- A block whose eight bytes all have values is read as those values. -/
theorem readBlock_ok {m : Memory} {a : Nat} {g : Nat → Byte}
    (h : ∀ j, j < 8 → Memory.read m (a + j) = some (g (a + j))) : readBlock m a = .ok (blockOf g a) := by
  have n : ∀ j, j < 8 → Memory.need m (a + j) = .ok (g (a + j)) := fun j hj => Memory.need_eq_ok.2 (h j hj)
  have n0 := n 0 (by omega)
  simp only [Nat.add_zero] at n0
  simp only [readBlock, n0, n 1 (by omega), n 2 (by omega), n 3 (by omega), n 4 (by omega), n 5 (by omega),
    n 6 (by omega), n 7 (by omega), except_ok_bind]
  rfl

/-- A block that is read has its eight values in the buffer. -/
theorem readBlock_read {m : Memory} {a : Nat} {b : Block} (h : readBlock m a = .ok b) (j : Nat) (hj : j < 8) :
    Memory.read m (a + j) = some b[j] := by
  unfold readBlock at h
  cases h0 : Memory.need m a <;> simp only [h0, except_error_bind, except_ok_bind] at h <;> try contradiction
  cases h1 : Memory.need m (a + 1) <;> simp only [h1, except_error_bind, except_ok_bind] at h <;> try contradiction
  cases h2 : Memory.need m (a + 2) <;> simp only [h2, except_error_bind, except_ok_bind] at h <;> try contradiction
  cases h3 : Memory.need m (a + 3) <;> simp only [h3, except_error_bind, except_ok_bind] at h <;> try contradiction
  cases h4 : Memory.need m (a + 4) <;> simp only [h4, except_error_bind, except_ok_bind] at h <;> try contradiction
  cases h5 : Memory.need m (a + 5) <;> simp only [h5, except_error_bind, except_ok_bind] at h <;> try contradiction
  cases h6 : Memory.need m (a + 6) <;> simp only [h6, except_error_bind, except_ok_bind] at h <;> try contradiction
  cases h7 : Memory.need m (a + 7) <;> simp only [h7, except_error_bind, except_ok_bind] at h <;> try contradiction
  rw [Memory.need_eq_ok] at h0 h1 h2 h3 h4 h5 h6 h7
  obtain rfl := (Except.ok.inj h).symm
  obtain rfl | rfl | rfl | rfl | rfl | rfl | rfl | rfl :
    j = 0 ∨ j = 1 ∨ j = 2 ∨ j = 3 ∨ j = 4 ∨ j = 5 ∨ j = 6 ∨ j = 7 := by omega
  all_goals assumption

/-- What writing a block leaves at each address. -/
theorem read_writeBlock (m : Memory) (a : Nat) (b : Block) (x : Nat) :
    Memory.read (writeBlock m a b) x = if a ≤ x ∧ x < a + 8 then b[x - a]? else Memory.read m x := by
  rw [writeBlock, Memory.read_writeAll, Vector.length_toList]
  split
  · rw [Vector.getElem?_toList]
  · rfl

theorem writeBlock_wf (m : Memory) (a : Nat) (b : Block) (h : Memory.wf m) : Memory.wf (writeBlock m a b) :=
  Memory.writeAll_wf m a _ h

theorem writeBlock_below {m : Memory} {a cap : Nat} (b : Block) (h : Memory.below m cap) (ha : a + 8 ≤ cap) :
    Memory.below (writeBlock m a b) cap :=
  Memory.writeAll_below _ h (by rw [Vector.length_toList]; exact ha)

/-- The free contents of DOUT after a fault are canonical and within its capacity. -/
theorem freeDout_sound (cap : Option Nat) (e : Nat) :
    Memory.wf (freeDout cap e) ∧ ∀ c, cap = some c → Memory.below (freeDout cap e) c := by
  cases cap with
  | none => exact ⟨Memory.ofBytes_wf _ _, fun c h => by cases h⟩
  | some n =>
    refine ⟨Memory.ofBytes_wf _ _, fun c h x hx => ?_⟩
    cases h
    have := Memory.ofBytes_below 0 ((Config.freeBytes e).take n) x hx
    have hl := List.length_take_le n (Config.freeBytes e)
    omega

/-- The free write position after a fault is within the capacity of DOUT (R29). -/
theorem freeOpos_le (cap : Option Nat) (e : Nat) : ∀ c, cap = some c → freeOpos cap e ≤ c := by
  rintro c rfl
  exact Nat.min_le_right _ _

end Sys2Proof.Machine
end

