-- ==== Sys2Proof/Laws/Ops.lean ====
section
/-! SUPPORT. One lemma for each shared operation of the two units that says everything it can do: the window reads,
appends and copies of DCMP, the block runs and key reads of CIPH, the end of a token. -/

namespace Sys2Proof.Machine

/-! ## The window -/

/-- Everything WinRead can answer (R64). -/
theorem winRead_cases (w : Win) (off : Int) :
    ((w.opos : Int) + off < 0 ∧ winRead w off = .raise .windowUnderflow) ∨
    (0 ≤ (w.opos : Int) + off ∧ ∃ v, Memory.read w.dout ((w.opos : Int) + off).toNat = some v ∧ winRead w off = .ok v) ∨
    (0 ≤ (w.opos : Int) + off ∧ Memory.read w.dout ((w.opos : Int) + off).toNat = none ∧
      winRead w off = .noValue ((w.opos : Int) + off).toNat) := by
  unfold winRead
  by_cases h : (w.opos : Int) + off < 0
  · exact .inl ⟨h, if_pos h⟩
  · rw [if_neg h]
    cases hr : Memory.read w.dout ((w.opos : Int) + off).toNat with
    | none => exact .inr (.inr ⟨by omega, rfl, rfl⟩)
    | some v => exact .inr (.inl ⟨by omega, v, rfl, rfl⟩)

/-- Everything Append can answer (R65). -/
theorem append_cases (cap : Option Nat) (w : Win) (v : Byte) :
    (hasRoom cap w.opos = true ∧ append cap w v = .ok { opos := w.opos + 1, dout := Memory.write w.dout w.opos v }) ∨
    (hasRoom cap w.opos = false ∧ append cap w v = .raise .outputOverflow) := by
  unfold append
  cases h : hasRoom cap w.opos <;> simp

/-- There is room at a position below the capacity. -/
theorem hasRoom_iff (cap : Option Nat) (n : Nat) : hasRoom cap n = true ↔ ∀ c, cap = some c → n < c := by
  cases cap <;> simp [hasRoom]

/-- What a run of copy steps that succeeds has done (R168): every byte it appended equals the one `off` behind it
in the result, and nothing else changed. -/
theorem copySteps_ok {cap : Option Nat} {off : Int} {n : Nat} {w w' : Win} (h : copySteps cap off n w = .ok w')
    (hoff : off < 0) :
    w'.opos = w.opos + n ∧
    (∀ k, k < n → 0 ≤ (w.opos : Int) + k + off ∧
      (Memory.read w'.dout (w.opos + k)).isSome ∧
      Memory.read w'.dout (w.opos + k) = Memory.read w'.dout ((w.opos : Int) + k + off).toNat) ∧
    (∀ a, a < w.opos ∨ w.opos + n ≤ a → Memory.read w'.dout a = Memory.read w.dout a) ∧
    (Memory.wf w.dout → Memory.wf w'.dout) ∧
    (∀ c, cap = some c → (w.opos ≤ c → w'.opos ≤ c) ∧ (Memory.below w.dout c → Memory.below w'.dout c)) := by
  induction n generalizing w with
  | zero =>
    simp only [copySteps, WinOut.ok.injEq] at h
    subst h
    exact ⟨rfl, fun k hk => absurd hk (Nat.not_lt_zero k), fun _ _ => rfl, id, fun _ _ => ⟨id, id⟩⟩
  | succ n ih =>
    simp only [copySteps] at h
    obtain ⟨_, hr⟩ | ⟨hge, v, hv, hr⟩ | ⟨_, _, hr⟩ := winRead_cases w off
    · rw [hr] at h; cases h
    · rw [hr] at h
      obtain ⟨hroom, ha⟩ | ⟨_, ha⟩ := append_cases cap w v
      · simp only [WinOut.andThen, ha] at h
        obtain ⟨ho, hs, hf, hw, hc⟩ := ih h
        simp only at ho hs hf hw hc
        have hself : Memory.read w'.dout w.opos = some v := by
          rw [hf w.opos (.inl (Nat.lt_succ_self _)), Memory.read_write_self]
        refine ⟨by omega, fun k hk => ?_, fun a ha' => ?_, fun hwf => hw (Memory.write_wf _ _ _ hwf), fun c hcap => ?_⟩
        · cases k with
          | zero =>
            refine ⟨by simpa using hge, by simp [hself], ?_⟩
            have hne : ((w.opos : Int) + off).toNat < w.opos := by omega
            simp only [Nat.add_zero, Int.natCast_zero, Int.add_zero]
            rw [hself, hf _ (.inl (by omega)), Memory.read_write_of_ne _ _ (by omega), hv]
          | succ k =>
            have := hs k (by omega)
            have e1 : w.opos + 1 + k = w.opos + (k + 1) := by omega
            have e2 : ((w.opos + 1 : Nat) : Int) + k + off = (w.opos : Int) + (k + 1 : Nat) + off := by omega
            rw [e1, e2] at this
            exact this
        · rw [hf a (by omega), Memory.read_write_of_ne _ _ (by omega)]
        · have hlt := (hasRoom_iff cap w.opos).1 hroom c hcap
          exact ⟨fun _ => (hc c hcap).1 hlt, fun hb => (hc c hcap).2 (Memory.write_below _ hb hlt)⟩
      · simp only [WinOut.andThen, ha] at h
        cases h
    · rw [hr] at h; cases h

/-- A run of copy steps succeeds when its first source is inside a written window and there is room for all of it. -/
theorem copySteps_succeeds {cap : Option Nat} {off : Int} {n : Nat} {w : Win} (hoff : off < 0)
    (hin : 0 ≤ (w.opos : Int) + off)
    (hwin : ∀ a, ((w.opos : Int) + off).toNat ≤ a → a < w.opos → (Memory.read w.dout a).isSome)
    (hroom : ∀ c, cap = some c → w.opos + n ≤ c) : ∃ w', copySteps cap off n w = .ok w' := by
  induction n generalizing w with
  | zero => exact ⟨w, rfl⟩
  | succ n ih =>
    obtain ⟨v, hv⟩ := Option.isSome_iff_exists.1 (hwin _ (Nat.le_refl _) (by omega))
    have hr : winRead w off = .ok v := by
      unfold winRead
      rw [if_neg (by omega), hv]
    have ha : append cap w v = .ok { opos := w.opos + 1, dout := Memory.write w.dout w.opos v } := by
      rw [append, if_pos ((hasRoom_iff cap w.opos).2 fun c hc => by have := hroom c hc; omega)]
    simp only [copySteps, hr, ha, WinOut.andThen]
    apply ih
    · show 0 ≤ ((w.opos + 1 : Nat) : Int) + off
      omega
    · intro a h1 h2
      change (((w.opos + 1 : Nat) : Int) + off).toNat ≤ a at h1
      change a < w.opos + 1 at h2
      rw [Memory.read_write]
      split
      · rfl
      · exact hwin a (by omega) (by omega)
    · intro c hc
      have := hroom c hc
      show w.opos + 1 + n ≤ c
      omega

/-- Which faults a run of copy steps can raise (R170). -/
theorem copySteps_raise {cap : Option Nat} {off : Int} {n : Nat} {w : Win} {c : DCause}
    (h : copySteps cap off n w = .raise c) : c = .windowUnderflow ∨ c = .outputOverflow := by
  induction n generalizing w with
  | zero => cases h
  | succ n ih =>
    simp only [copySteps] at h
    obtain ⟨_, hr⟩ | ⟨_, v, _, hr⟩ | ⟨_, _, hr⟩ := winRead_cases w off
    · rw [hr] at h; cases h; exact .inl rfl
    · rw [hr] at h
      obtain ⟨_, ha⟩ | ⟨_, ha⟩ := append_cases cap w v
      · simp only [WinOut.andThen, ha] at h; exact ih h
      · simp only [WinOut.andThen, ha] at h; cases h; exact .inr rfl
    · rw [hr] at h; cases h

/-- What the end of a token's window operations can answer: the window written back, or the fault taken. -/
theorem finishToken_next {s t : State} {r : WinOut Win} (h : finishToken s r = .next t) :
    (∃ w, r = .ok w ∧ t = endToken (s.setWin w)) ∨ ∃ c, r = .raise c ∧ t = raiseD c s := by
  cases r with
  | ok w => exact .inl ⟨w, rfl, by simpa [finishToken] using h.symm⟩
  | raise c => exact .inr ⟨c, rfl, by simpa [finishToken] using h.symm⟩
  | noValue a => simp [finishToken] at h

/-! ## Blocks and keys -/

/-- What a run of block transforms that succeeds has done (R133, R134): block j is the transform of the old block j,
every byte outside the blocks is as before, and the buffer stays sound. -/
theorem cryptBlocks_ok {f : Block → Block} {count k : Nat} {m m' : Memory} (h : cryptBlocks f count k m = .ok m') :
    (∀ j, k ≤ j → j < k + count → ∃ b, readBlock m (8 * j) = .ok b ∧
      ∀ x, 8 * j ≤ x → x < 8 * j + 8 → Memory.read m' x = (f b)[x - 8 * j]?) ∧
    (∀ x, x < 8 * k ∨ 8 * (k + count) ≤ x → Memory.read m' x = Memory.read m x) ∧
    (Memory.wf m → Memory.wf m') ∧
    (∀ cap, 8 * (k + count) ≤ cap → Memory.below m cap → Memory.below m' cap) := by
  induction count generalizing k m with
  | zero =>
    simp only [cryptBlocks, Except.ok.injEq] at h
    subst h
    exact ⟨fun j h1 h2 => by omega, fun _ _ => rfl, id, fun _ _ => id⟩
  | succ count ih =>
    simp only [cryptBlocks] at h
    split at h
    · cases h
    · rename_i b hb
      obtain ⟨h1, h2, h3, h4⟩ := ih h
      have same : ∀ j, k + 1 ≤ j → ∀ b', readBlock (writeBlock m (8 * k) (f b)) (8 * j) = .ok b' →
          readBlock m (8 * j) = .ok b' := by
        intro j hj b' hb'
        have hg : ∀ i, i < 8 → Memory.read m (8 * j + i) = some (b'[8 * j + i - 8 * j]?.getD 0) := by
          intro i hi
          have := readBlock_read hb' i hi
          rw [read_writeBlock, if_neg (by omega)] at this
          rw [this, show 8 * j + i - 8 * j = i by omega, Vector.getElem?_eq_getElem hi]
          rfl
        rw [readBlock_ok (g := fun x => b'[x - 8 * j]?.getD 0) hg]
        congr 1
        apply Vector.ext
        intro i hi
        obtain rfl | rfl | rfl | rfl | rfl | rfl | rfl | rfl :
          i = 0 ∨ i = 1 ∨ i = 2 ∨ i = 3 ∨ i = 4 ∨ i = 5 ∨ i = 6 ∨ i = 7 := by omega
        all_goals simp [blockOf]
      refine ⟨fun j hj1 hj2 => ?_, fun x hx => ?_, fun hw => h3 (writeBlock_wf _ _ _ hw),
        fun cap hcap hb' => h4 cap (by omega) (writeBlock_below _ hb' (by omega))⟩
      · by_cases hjk : j = k
        · subst hjk
          refine ⟨b, hb, fun x hx1 hx2 => ?_⟩
          rw [h2 x (.inl (by omega)), read_writeBlock, if_pos ⟨hx1, hx2⟩]
        · obtain ⟨b', hb', hx⟩ := h1 j (by omega) (by omega)
          exact ⟨b', same j (by omega) b' hb', hx⟩
      · rw [h2 x (by omega), read_writeBlock, if_neg (by omega)]

/-- A run of block transforms succeeds when every byte of its blocks has a value. -/
theorem cryptBlocks_succeeds {f : Block → Block} {count k : Nat} {m : Memory}
    (h : ∀ x, 8 * k ≤ x → x < 8 * (k + count) → (Memory.read m x).isSome) :
    ∃ m', cryptBlocks f count k m = .ok m' := by
  induction count generalizing k m with
  | zero => exact ⟨m, rfl⟩
  | succ count ih =>
    have hb := readBlock_ok (m := m) (a := 8 * k) (g := fun x => (Memory.read m x).getD 0) fun j hj => by
      obtain ⟨v, hv⟩ := Option.isSome_iff_exists.1 (h (8 * k + j) (by omega) (by omega))
      simp [hv]
    simp only [cryptBlocks, hb]
    apply ih
    intro x h1 h2
    rw [read_writeBlock, if_neg (by omega)]
    exact h x (by omega) (by omega)

/-- A key whose words all have values is read as those words, in order (R111). -/
theorem keyWords_ok {m : Memory} {j count : Nat} {g : Nat → Byte}
    (h : ∀ x, 4 * j ≤ x → x < 4 * (j + count) → Memory.read m x = some (g x)) :
    keyWords m j count = .ok ((List.range count).map fun i =>
      be32 (g (4 * (j + i))) (g (4 * (j + i) + 1)) (g (4 * (j + i) + 2)) (g (4 * (j + i) + 3))) := by
  induction count generalizing j with
  | zero => rfl
  | succ count ih =>
    have n : ∀ i, i < 4 → Memory.need m (4 * j + i) = .ok (g (4 * j + i)) := fun i hi =>
      Memory.need_eq_ok.2 (h _ (by omega) (by omega))
    have n0 := n 0 (by omega)
    simp only [Nat.add_zero] at n0
    have hw : keyWord m j = .ok (be32 (g (4 * j)) (g (4 * j + 1)) (g (4 * j + 2)) (g (4 * j + 3))) := by
      simp only [keyWord, n0, n 1 (by omega), n 2 (by omega), n 3 (by omega), except_ok_bind]
      rfl
    have hr := ih (j := j + 1) fun x h1 h2 => h x (by omega) (by omega)
    simp only [keyWords, hw, hr, except_ok_bind, List.range_succ_eq_map, List.map_cons, List.map_map]
    show Except.ok _ = Except.ok _
    congr 2
    apply List.map_congr_left
    intro i _
    simp only [Function.comp, show j + 1 + i = j + i.succ by omega]

/-- A key that is read has as many words as asked for. -/
theorem keyWords_length {m : Memory} {j count : Nat} {k : List Word} (h : keyWords m j count = .ok k) :
    k.length = count := by
  induction count generalizing j k with
  | zero => cases h; rfl
  | succ count ih =>
    simp only [keyWords] at h
    cases hw : keyWord m j with
    | error e => rw [hw] at h; cases h
    | ok w =>
      rw [hw, except_ok_bind] at h
      cases hr : keyWords m (j + 1) count with
      | error e => rw [hr] at h; cases h
      | ok ws =>
        rw [hr, except_ok_bind] at h
        cases h
        simp [ih hr]

/-- A key of `n` words, of which KEYLOAD reads at most 18, is read and mixed in as R113 says: P[i] takes word i mod n. -/
theorem keyWords_mixed {m : Memory} {n : Nat} {g : Nat → Byte} (hn : 1 ≤ n)
    (h : ∀ x, x < 72 → x < 4 * n → Memory.read m x = some (g x)) (t : Tables) :
    ∃ k, keyWords m 0 (min n 18) = .ok k ∧ ∀ i : Fin 18, (mixKey t k).p.get i = t.p.get i ^^^
      be32 (g (4 * (i.val % n))) (g (4 * (i.val % n) + 1)) (g (4 * (i.val % n) + 2)) (g (4 * (i.val % n) + 3)) := by
  refine ⟨_, keyWords_ok (g := g) fun x _ hx => h x (by omega) (by omega), fun i => ?_⟩
  have hi : i.val % min n 18 = i.val % n := by
    rcases Nat.le_total n 18 with hh | hh
    · rw [Nat.min_eq_left hh]
    · rw [Nat.min_eq_right hh, Nat.mod_eq_of_lt i.isLt, Nat.mod_eq_of_lt (by omega)]
  have hlt : i.val % n < min n 18 := hi ▸ Nat.mod_lt _ (by omega)
  simp only [mixKey, Vector.get_ofFn, List.length_map, List.length_range, hi, List.getD, List.getElem?_map,
    List.getElem?_range hlt, Option.map_some, Option.getD_some, Nat.zero_add]

end Sys2Proof.Machine
end

