-- ==== Sys2Proof/Laws/Exec.lean ====
section
/-! SUPPORT. One inversion lemma per meaning: if it answers a next state, then one of these cases holds. And the same
for a step. -/

namespace Sys2Proof.Machine

/-- ENCBUF and DECBUF (R133, R134), the tests in their order. -/
theorem cryptBuf_next {f : Tables → Block → Block} {s t : State} (h : cryptBuf f s = .next t) :
    s.ciph.status.busy = false ∧
    ((s.cfg.cbufCap < s.ciph.cLen.toNat ∧ t = raiseC .lengthExceedsBuffer (startC s)) ∨
     (s.ciph.cLen.toNat ≤ s.cfg.cbufCap ∧ s.ciph.keyed = false ∧ t = raiseC .notKeyed (startC s)) ∨
     (s.ciph.cLen.toNat ≤ s.cfg.cbufCap ∧ s.ciph.keyed = true ∧
       ∃ m, cryptBlocks (f s.ciph.tab) (s.ciph.cLen.toNat / 8) 0 s.ciph.cbuf = .ok m ∧
         t = haltC (startC { s with ciph := { s.ciph with cbuf := m } }))) := by
  unfold cryptBuf at h
  split at h
  · cases h
  · rename_i hb
    refine ⟨by simpa using hb, ?_⟩
    split at h
    · rename_i hl
      exact .inl ⟨hl, by simpa using h.symm⟩
    · rename_i hl
      split at h
      · rename_i hk
        exact .inr (.inl ⟨by omega, hk, by simpa using h.symm⟩)
      · rename_i hk
        split at h
        · cases h
        · rename_i m hm
          exact .inr (.inr ⟨by omega, by simpa using hk, m, hm, by simpa using h.symm⟩)

/-- KEYLOAD (R110, R111), the tests in their order. -/
theorem execKeyload_next {s t : State} (h : execKeyload s = .next t) :
    s.ciph.status.busy = false ∧
    ((s.cfg.kbufCap < s.ciph.cLen.toNat ∧
        t = raiseKeyload .lengthExceedsBuffer (startC { s with ciph := { s.ciph with keyed := false } })) ∨
     (s.ciph.cLen.toNat ≤ s.cfg.kbufCap ∧ s.ciph.cLen.toNat / 4 = 0 ∧
        t = raiseKeyload .keyTooShort (startC { s with ciph := { s.ciph with keyed := false } })) ∨
     (s.ciph.cLen.toNat ≤ s.cfg.kbufCap ∧ s.ciph.cLen.toNat / 4 ≠ 0 ∧
       ∃ k, keyWords s.ciph.kbuf 0 (min (s.ciph.cLen.toNat / 4) 18) = .ok k ∧
         t = haltC (startC { s with
           ciph := { s.ciph with
             tab := keySchedule s.cfg.ks s.cfg.init k, keyed := true, temps := freeCiphTemps s.ciph.free } }))) := by
  unfold execKeyload at h
  split at h
  · cases h
  · rename_i hb
    refine ⟨by simpa using hb, ?_⟩
    unfold loadKey at h
    split at h
    · rename_i hl
      exact .inl ⟨hl, by simpa using h.symm⟩
    · rename_i hl
      split at h
      · rename_i hz
        exact .inr (.inl ⟨Nat.le_of_not_lt hl, hz, by simpa using h.symm⟩)
      · rename_i hz
        split at h
        · cases h
        · rename_i k hk
          refine .inr (.inr ⟨Nat.le_of_not_lt hl, hz, k, hk, ?_⟩)
          simp only [Host.Outcome.next.injEq] at h
          exact h.symm

/-- DSTART (R160). -/
theorem execDstart_next {s t : State} (h : execDstart s = .next t) :
    s.dcmp.status.busy = false ∧
    ((s.cfg.dinCap < s.dcmp.dIlen.toNat ∧ t = raiseD .lengthExceedsBuffer (startD s)) ∨
     (s.dcmp.dIlen.toNat ≤ s.cfg.dinCap ∧ t = startD { s with
        dcmp := { s.dcmp with
          ilen := s.dcmp.dIlen.toNat
          cur := { s.dcmp.cur with ipos := 0, bitcnt := 0 }
          opos := 0 } })) := by
  unfold execDstart at h
  split at h
  · cases h
  · rename_i hb
    refine ⟨by simpa using hb, ?_⟩
    split at h
    · rename_i hl
      exact .inl ⟨hl, by simpa using h.symm⟩
    · rename_i hl
      exact .inr ⟨by omega, by simpa using h.symm⟩

/-- A copy that succeeds (R168). -/
theorem copy_ok {cap : Option Nat} {off : Int} {n : Nat} {w w' : Win} (h : copy cap off n w = .ok w') :
    off < 0 ∧ copySteps cap off n w = .ok w' := by
  unfold copy at h
  split at h
  · cases h
  · exact ⟨by omega, h⟩

/-- What the window operations of a token that goes on have done: the write position moved forward by at most 265,
the bytes below it stayed, the bytes passed over have values, and the output buffer stays sound. -/
structure WinStep (cap : Option Nat) (w w' : Win) : Prop where
  opos_le : w.opos ≤ w'.opos ∧ w'.opos ≤ w.opos + 265
  below : ∀ a, a < w.opos → Memory.read w'.dout a = Memory.read w.dout a
  above : ∀ a, w'.opos ≤ a → Memory.read w'.dout a = Memory.read w.dout a
  fresh : ∀ a, w.opos ≤ a → a < w'.opos → (Memory.read w'.dout a).isSome
  wf : Memory.wf w.dout → Memory.wf w'.dout
  cap : ∀ c, cap = some c → (w.opos ≤ c → w'.opos ≤ c) ∧ (Memory.below w.dout c → Memory.below w'.dout c)

theorem append_winStep {cap : Option Nat} {w w' : Win} {v : Byte} (h : append cap w v = .ok w') : WinStep cap w w' := by
  obtain ⟨hr, ha⟩ | ⟨_, ha⟩ := append_cases cap w v
  · rw [ha] at h
    cases h
    refine ⟨⟨Nat.le_succ _, by show w.opos + 1 ≤ _; omega⟩, fun a h => Memory.read_write_of_ne _ _ (by omega),
      fun a h => ?_, fun a h1 h2 => ?_, Memory.write_wf _ _ _, fun c hc => ?_⟩
    · exact Memory.read_write_of_ne _ _ (by change w.opos + 1 ≤ a at h; omega)
    · change a < w.opos + 1 at h2
      obtain rfl : a = w.opos := by omega
      simp
    · have hlt := (hasRoom_iff cap w.opos).1 hr c hc
      exact ⟨fun _ => hlt, fun hb => Memory.write_below v hb hlt⟩
  · rw [ha] at h
    cases h

theorem copy_winStep {cap : Option Nat} {off : Int} {n : Nat} {w w' : Win} (h : copy cap off n w = .ok w')
    (hn : n ≤ 265) : WinStep cap w w' := by
  obtain ⟨hoff, hc⟩ := copy_ok h
  obtain ⟨ho, hs, hf, hw, hcap⟩ := copySteps_ok hc hoff
  refine ⟨⟨by omega, by omega⟩, fun a ha => hf a (.inl ha), fun a ha => hf a (.inr (by omega)), fun a h1 h2 => ?_, hw, hcap⟩
  have := (hs (a - w.opos) (by omega)).2.1
  rwa [show w.opos + (a - w.opos) = a by omega] at this

theorem shortSize_le (a b : Bool) : shortSize a b ≤ 265 := by
  cases a <;> cases b <;> decide

theorem longSize_le (sz : BitVec 3) : longSize sz ≤ 265 := by
  have := sz.isLt
  simp only [longSize, Config.longSizeBase]
  omega

theorem extSize_le (n : Byte) : extSize n ≤ 265 := by
  have := n.isLt
  simp only [extSize, Config.extSizeBase]
  omega

/-- The tokens (R163 to R166) that append: the window moved, or a fault was taken. -/
inductive TokenNext (s t : State) : Prop where
  | moved (w : Win) (h : WinStep s.cfg.doutCap s.win w) (e : t = endToken (s.setWin w))
  | raised (c : DCause) (e : t = raiseD c s)

theorem finishToken_tokenNext {s t : State} {r : WinOut Win} (h : finishToken s r = .next t)
    (hw : ∀ w, r = .ok w → WinStep s.cfg.doutCap s.win w) : TokenNext s t := by
  obtain ⟨w, hr, e⟩ | ⟨c, _, e⟩ := finishToken_next h
  · exact .moved w (hw w hr) e
  · exact .raised c e

theorem execLit_next {s t : State} {v : Byte} (h : execLit v s = .next t) : TokenNext s t :=
  finishToken_tokenNext h fun _ hw => append_winStep hw

theorem execScopy_next {s t : State} {a b : Bool} {o : Byte} (h : execScopy a b o s = .next t) : TokenNext s t :=
  finishToken_tokenNext h fun _ hw => copy_winStep hw (shortSize_le a b)

theorem execLcopy_next {s t : State} {q : BitVec 13} {sz : BitVec 3} (h : execLcopy q sz s = .next t) :
    TokenNext s t :=
  finishToken_tokenNext h fun _ hw => copy_winStep hw (longSize_le sz)

theorem execLcopyx_next {s t : State} {q : BitVec 13} {n : Byte} (h : execLcopyx q n s = .next t) : TokenNext s t :=
  finishToken_tokenNext h fun _ hw => copy_winStep hw (extSize_le n)

@[simp] theorem State.busy_ciph (s : State) : s.busy .ciph = s.ciph.status.busy := rfl
@[simp] theorem State.busy_dcmp (s : State) : s.busy .dcmp = s.dcmp.status.busy := rfl

/-- A host read of a byte that answers: the byte that stands there, where one does, and nothing but the reply changes. -/
theorem hostReadByte_next {s t : State} {sp : Space} {a : Nat} (h : hostReadByte sp a s = .next t) :
    ∃ b, t = { s with hostIn := .byte b } ∧
      (sp = .cbuf ∧ s.ciph.status.busy = false ∧ a < s.cfg.cbufCap ∧ (∀ v, Memory.read s.ciph.cbuf a = some v → b = v) ∨
       sp = .dout ∧ s.dcmp.status.busy = false ∧ hasRoom s.cfg.doutCap a = true ∧
        (∀ v, Memory.read s.dcmp.dout a = some v → b = v)) := by
  cases sp with
  | kbuf => cases h
  | din => cases h
  | cbuf =>
    simp only [hostReadByte, answerByte] at h
    split at h
    · cases h
    · rename_i hb
      split at h
      · cases h
      · rename_i ha
        exact ⟨_, (Host.Outcome.next.inj h).symm,
          .inl ⟨rfl, by simpa using hb, Nat.lt_of_not_le ha, fun v hv => by simp [hv]⟩⟩
  | dout =>
    simp only [hostReadByte, answerByte] at h
    split at h
    · cases h
    · rename_i hb
      split at h
      · cases h
      · rename_i ha
        exact ⟨_, (Host.Outcome.next.inj h).symm, .inr ⟨rfl, by simpa using hb, by simpa using ha, fun v hv => by simp [hv]⟩⟩

/-- A host read of a register that answers: not an operand register of a busy unit, and nothing but the reply changes. -/
theorem hostReadReg_next {s t : State} {u : UnitId} {no : Nat} (h : hostReadReg u no s = .next t) :
    ¬(no = 2 ∧ s.busy u = true) ∧ ∃ w, readReg u no s = some w ∧ t = { s with hostIn := .word w } := by
  unfold hostReadReg at h
  split at h
  · cases h
  · rename_i hb
    split at h
    · rename_i w hw
      exact ⟨hb, w, hw, by simpa using h.symm⟩
    · cases h

/-- Everything a step can do that answers a next state: a host action, an idle turn, a token, or the end of a stream
that ran out. `u` is the state once the host's queue has been looked at. -/
inductive StepNext (s t : State) : Prop where
  | host (a : HostAct) (rest : List Pending) (q : s.hostq = ⟨0, a⟩ :: rest) (e : hostAct a { s with hostq := rest } = .next t)
  | idle (q : List Pending) (b : s.dcmp.status.busy = false) (e : t = { s with hostq := q })
  | token (q : List Pending) (i : Instr) (c : Cursor) (b : s.dcmp.status.busy = true)
      (d : decodeToken s.stream s.dcmp.cur = .ok i c) (e : exec i ({ s with hostq := q }.setCursor c) = .next t)
  | exhausted (q : List Pending) (c : Cursor) (b : s.dcmp.status.busy = true)
      (d : decodeToken s.stream s.dcmp.cur = .stop .exhausted c)
      (e : t = raiseD .inputExhausted ({ s with hostq := q }.setCursor c))

theorem unitsTurn_next {s t : State} {q : List Pending} (h : unitsTurn { s with hostq := q } = .next t) :
    StepNext s t := by
  unfold unitsTurn at h
  split at h
  · rename_i hb
    unfold tokenStep at h
    split at h
    · rename_i i c hd
      exact .token q i c hb hd h
    · rename_i c hd
      exact .exhausted q c hb hd (by simpa using h.symm)
    · cases h
  · rename_i hb
    exact .idle q (by simpa using hb) (by simpa using h.symm)

theorem step_next {s t : State} (h : step s = .next t) : StepNext s t := by
  unfold step machineStep at h
  split at h
  · rename_i hq
    exact unitsTurn_next (q := []) (by rw [← hq]; exact h)
  · rename_i a rest hq
    exact .host a rest hq h
  · exact unitsTurn_next h

end Sys2Proof.Machine
end

