-- ==== Sys2Proof/Laws/PerInstr.lean ====
section
/-! SUPPORT. Statements made per instruction, about the instruction as syntax: the length of its encoding (R98). -/

namespace Sys2Proof.Laws.TokenLength

/-- R98: a token's encoding has its number of control bits and of data bytes; a host command is one register write
and has neither. -/
def Statement (i : Instr) : Prop :=
  match encode i with
  | .token ctrl data => ctrl.length = i.ctrlBits ∧ data.length = i.dataBytes ∧ 0 < i.ctrlBits
  | .cCmd _ => i.ctrlBits = 0 ∧ i.dataBytes = 0
  | .dCmd _ => i.ctrlBits = 0 ∧ i.dataBytes = 0

theorem keyload : Statement .keyload := ⟨rfl, rfl⟩
theorem encbuf : Statement .encbuf := ⟨rfl, rfl⟩
theorem decbuf : Statement .decbuf := ⟨rfl, rfl⟩
theorem dstart : Statement .dstart := ⟨rfl, rfl⟩
theorem lit (v : Byte) : Statement (.lit v) := ⟨rfl, rfl, Nat.succ_pos _⟩
theorem scopy (a b : Bool) (o : Byte) : Statement (.scopy a b o) := ⟨rfl, rfl, Nat.succ_pos _⟩
theorem lcopy (q : BitVec 13) (sz : BitVec 3) : Statement (.lcopy q sz) := ⟨rfl, rfl, Nat.succ_pos _⟩
theorem lcopyx (q : BitVec 13) (n : Byte) : Statement (.lcopyx q n) := ⟨rfl, rfl, Nat.succ_pos _⟩
theorem endMark : Statement .endMark := ⟨rfl, rfl, Nat.succ_pos _⟩

end Sys2Proof.Laws.TokenLength
end

