-- ==== Sys2Proof/Tests/Slice0.lean ====
section
/-! SUPPORT. Tests of the model: expected results come from the encodings of 30_encoding.md, from opcode_table.json and
from the vectors of 95_test_vectors.md (named at each test). Then, for each obligation that has hypotheses, a theorem
`witness_<Name>` with a concrete state and operands that meet them all. -/

namespace Sys2Proof.Machine.Tests

/-! ## Helpers -/

/-- P_INIT and S_INIT of configuration TOY (95_test_vectors.md section 2). -/
def toy : Tables where
  p := ⟨((List.range 18).map (BitVec.ofNat 32)).toArray, rfl⟩
  s := ⟨((List.range 4).map fun b => (⟨((List.range 256).map fun k =>
    BitVec.ofNat 32 (0x01000193 * (256 * b + k + 1))).toArray, by simp⟩ : Vector Word 256)).toArray, by simp⟩

/-- TOY after the key XOR with 09 07 C1 2B (vector K2). -/
def toyKeyed : Tables := mixKey toy [0x0907C12B]

/-- Small capacities, everything else as decided. -/
def params : Params :=
  { init := toy, kbufCap := 80, cbufCap := 20, dinCap := 12, doutCap := some 16, longOffset := .sext13, ks := .decided }

/-- Reset, with these parameters. -/
def idle : State := { State.reset with cfg := params }

/-- CIPH keyed with `toyKeyed`, this length and these bytes in CBUF. -/
def keyed (len : Word) (bs : List Byte) : State :=
  { idle with ciph := { idle.ciph with tab := toyKeyed, keyed := true, cLen := len, cbuf := Memory.ofBytes 0 bs } }

/-- CIPH with this key length and these bytes in KBUF. -/
def keying (len : Word) (bs : List Byte) : State :=
  { idle with ciph := { idle.ciph with cLen := len, kbuf := Memory.ofBytes 0 bs } }

/-- DCMP in a run: this stream, these bytes of output so far. -/
def running (din dout : List Byte) : State :=
  { idle with dcmp := { idle.dcmp with
      status := { busy := true, done := false, fault := false, cause := 0 }
      ilen := din.length, dIlen := BitVec.ofNat 32 din.length, din := Memory.ofBytes 0 din
      opos := dout.length, dout := Memory.ofBytes 0 dout } }

/-- The next state passes a test. -/
def nextIs (o : Out) (p : State → Bool) : Bool :=
  match o with
  | .next t => p t
  | .fault _ => false
  | .refused _ => false

/-- The state with one host action due. -/
def withAct (s : State) (a : HostAct) : State := { s with hostq := [⟨0, a⟩] }

/-! ## Well-formedness -/

/-- R88: a size code of 0 is no LCOPY. -/
theorem test_lcopy_size_zero_illformed : Instr.wf (.lcopy 0x1FFF 0) = false := by decide
/-- R88: a field of 0 is END, so no LCOPYX has an offset field of 0. -/
theorem test_lcopyx_zero_field_illformed : Instr.wf (.lcopyx 0 5) = false := by decide
theorem test_wf_each : [Instr.keyload, .encbuf, .decbuf, .dstart, .lit 0, .scopy false false 0, .lcopy 0 1, .lcopyx 1 0,
    .endMark].all Instr.wf = true := by decide

/-! ## Decoding, from words written out bit by bit -/

/-- R80: OP in C_CMD[2:0]. -/
theorem test_decode_keyload : decodeCCmd 0b00000000000000000000000000000001 = some .keyload := by decide
theorem test_decode_encbuf : decodeCCmd 0b00000000000000000000000000000010 = some .encbuf := by decide
theorem test_decode_decbuf : decodeCCmd 0b00000000000000000000000000000011 = some .decbuf := by decide
theorem test_decode_dstart : decodeDCmd 0b00000000000000000000000000000001 = some .dstart := by decide
/-- R81: codes 0 and 4 to 7, and any bit above OP. -/
theorem test_reserved_ccmd : [0, 4, 5, 6, 7, 8, 9, 0x80000001].map decodeCCmd = List.replicate 8 none := by decide
theorem test_reserved_dcmd : [0, 2, 3, 0x80000001].map decodeDCmd = List.replicate 4 none := by decide
/-- R85: control bit 1, then the literal. -/
theorem test_decode_lit :
    decodeBytes [0b00000001, 0b01101001] = .ok (.lit 0x69) { ipos := 2, bitbuf := 0, bitcnt := 7 } := by decide
/-- R86: control bits 0, 0, a, b from bit 0 up, then the offset byte; bit a is the first read. -/
theorem test_decode_scopy :
    decodeBytes [0b00000100, 0b11111110] = .ok (.scopy true false 0xFE) { ipos := 2, bitbuf := 0, bitcnt := 4 } := by
  decide
/-- R87, R91: control bits 0, 1, then f low byte first; f = 1111111111101 001. -/
theorem test_decode_lcopy : decodeBytes [0b00000010, 0b11101001, 0b11111111] =
    .ok (.lcopy 0b1111111111101 0b001) { ipos := 3, bitbuf := 0, bitcnt := 6 } := by decide
/-- R87, R92: f = 1000000000000 000, then n. -/
theorem test_decode_lcopyx : decodeBytes [0b00000010, 0b00000000, 0b10000000, 0b00000101] =
    .ok (.lcopyx 0b1000000000000 5) { ipos := 4, bitbuf := 0, bitcnt := 6 } := by decide
/-- R88: f = 0. -/
theorem test_decode_end :
    decodeBytes [0b00000010, 0, 0] = .ok .endMark { ipos := 3, bitbuf := 0, bitcnt := 6 } := by decide
/-- Vectors X1 and X5: an empty stream, and a stream that ends before the field. -/
theorem test_decode_exhausted : decodeBytes [] = .stop .exhausted .start ∧
    decodeBytes [0x02] = .stop .exhausted { ipos := 1, bitbuf := 0, bitcnt := 6 } := by decide
/-- Vector T14: the SCOPY's first control bit is cached, its others stand in a second control byte before the offset. -/
theorem test_decode_split_control : decodeToken (.ofList [0x7F, 0x61, 0x16, 0xF9]) { ipos := 2, bitbuf := 0, bitcnt := 1 } =
    .ok (.scopy true true 0xF9) { ipos := 4, bitbuf := 2, bitcnt := 5 } := by decide
/-- PROG-C of section 9: the packed stream, and what it reads back as. -/
theorem test_pack_progC : pack [.lit 0x10, .lit 0x20, .scopy false false 0xFE, .scopy true false 0xFC, .lcopy 0x1FF8 1,
      .lit 0x30, .scopy false true 0xFF, .lit 0x40, .lit 0x50, .endMark] =
    [0x03, 0x10, 0x20, 0xFE, 0x19, 0xFC, 0xC1, 0xFF, 0x30, 0x17, 0xFF, 0x40, 0x50, 0x00, 0x00] := by decide
theorem test_unpack_progA : decodeTokens (.ofList [0xE7, 0x61, 0x62, 0x63, 0xFD, 0x21, 0x02, 0x00, 0x00]) 6 .start =
    some [.lit 0x61, .lit 0x62, .lit 0x63, .scopy true true 0xFD, .lit 0x21, .endMark] := by decide
/-- opcode_table.json: the match of each row that a table word can tell apart (log 12). -/
theorem test_table_words : decodeTableWord 32 1 = some .keyload ∧ decodeTableWord 32 2 = some .encbuf ∧
    decodeTableWord 32 3 = some .decbuf ∧ decodeTableWord 8 1 = some (.lit 0) ∧
    decodeTableWord 8 0 = some (.scopy false false 0) ∧ decodeTableWord 8 2 = some .endMark ∧
    decodeTableWord 24 0x800102 = some (.lcopy 0x1000 1) ∧ decodeTableWord 32 4 = none := by decide

/-! ## The first step after reset -/

theorem test_first_step_commands :
    nextIs (step (State.reset.withFetchWord 32 1)) (fun t => t.ciph.status.cause == 3) = true ∧
    nextIs (step (State.reset.withFetchWord 32 2)) (fun t => t.ciph.status.cause == 4) = true ∧
    nextIs (step (State.reset.withFetchWord 32 3)) (fun t => t.ciph.status.cause == 4) = true := by decide
theorem test_first_step_tokens :
    nextIs (step (State.reset.withFetchWord 16 0x6901)) (fun t => t.dcmp.dout == [(0, 0x69)]) = true ∧
    nextIs (step (State.reset.withFetchWord 16 0xFF00)) (fun t => t.dcmp.status.cause == 5) = true ∧
    nextIs (step (State.reset.withFetchWord 24 0x800102)) (fun t => t.dcmp.status.cause == 5) = true ∧
    nextIs (step (State.reset.withFetchWord 24 0x000002)) (fun t => t.dcmp.status.done) = true := by decide
theorem test_dstart_by_host :
    nextIs (step (withAct State.reset (.writeReg .dcmp 0 1))) (fun t => t.dcmp.status.busy) = true := by decide

/-! ## CIPH -/

/-- Vectors F1 to F5. -/
theorem test_roundF : [0x00000000, 0xFFFFFFFF, 0x01020304, 0x80000000, 0x04030201].map (roundF toy) =
    [0x04076C48, 0x00064C00, 0x06077772, 0x840632C8, 0x0C0747B8] := by decide +kernel
/-- Vector F6 (a carry is lost) and F7 (the bracketing of R139), with their entries in constant S-boxes. -/
theorem test_roundF_carry : roundF { toy with s := #v[Vector.replicate 256 0xFFFFFFFF, Vector.replicate 256 2,
    Vector.replicate 256 0xF0F0F0F0, Vector.replicate 256 0x10000000] } 0 = 0x00F0F0F1 := by decide +kernel
theorem test_roundF_bracketing : roundF { toy with s := #v[Vector.replicate 256 1, Vector.replicate 256 1,
    Vector.replicate 256 1, Vector.replicate 256 0] } 0 = 3 := by decide +kernel
/-- Vector K2: the P array after the key XOR begins and ends so. -/
theorem test_mixKey : (toyKeyed.p.get 0, toyKeyed.p.get 1, toyKeyed.p.get 17) =
    ((0x0907C12B : Word), (0x0907C12A : Word), (0x0907C13A : Word)) := by decide +kernel
/-- Vector K5: a two-word key alternates. -/
theorem test_mixKey_two : ((mixKey toy [0x01234567, 0x89ABCDEF]).p.toList.take 4) =
    [0x01234567, 0x89ABCDEE, 0x01234565, 0x89ABCDEC] := by decide +kernel
/-- Vector K3: the first schedule encryption; and back (R136). -/
theorem test_encBlock : encBlock toyKeyed zeroBlock = #v[0x36, 0xEA, 0x07, 0x65, 0xFC, 0x5A, 0x08, 0x6C] := by
  decide +kernel
theorem test_decBlock : decBlock toyKeyed #v[0x36, 0xEA, 0x07, 0x65, 0xFC, 0x5A, 0x08, 0x6C] = zeroBlock := by
  decide +kernel
/-- Vector K2: the first two outputs of the schedule, and the words they overwrite. -/
theorem test_schedule_start :
    ((pSlots.take 2).foldl (schedStep .decided) { tab := toyKeyed, d := zeroBlock }).d =
      #v[0x49, 0xB1, 0x06, 0x67, 0x8C, 0x60, 0x0B, 0x74] ∧
    (((pSlots.take 2).foldl (schedStep .decided) { tab := toyKeyed, d := zeroBlock }).tab.p.toList.take 5) =
      [0x6507EA36, 0x6C085AFC, 0x6706B149, 0x740B608C, 0x0907C12F] := by decide +kernel
/-- R117: 9 encryptions, then 512. -/
theorem test_schedule_length : pSlots.length = 9 ∧ (sSlots .boxByBox).length = 512 := by decide +kernel
/-- R115: the boxes are filled one after another. -/
theorem test_schedule_order : (sSlots .boxByBox)[127]? = some (.s 0 127) ∧ (sSlots .boxByBox)[128]? = some (.s 1 0) := by
  decide +kernel

/-- R52, R116: KEYLOAD of 09 07 C1 2B reads its one key word big-endian. -/
theorem test_keyload_word : keyWords (Memory.ofBytes 0 [0x09, 0x07, 0xC1, 0x2B]) 0 1 = .ok [0x0907C12B] := by decide
theorem test_keyload_done : nextIs (exec .keyload (keying 5 [9, 7, 0xC1, 0x2B, 0xAA]))
    (fun t => t.ciph.keyed && t.ciph.status.done && !t.ciph.status.busy) = true := by decide +kernel
/-- Vector K7. -/
theorem test_keyload_faults : nextIs (exec .keyload (keying 3 [1, 2, 3])) (fun t => cStatus t.ciph == 0x38) = true ∧
    nextIs (exec .keyload (keying 81 [])) (fun t => cStatus t.ciph == 0x28) = true := by decide
/-- Vector B5 (a), (e) in form: the tail and the bytes past the length stay; the block is K3's. -/
theorem test_encbuf : nextIs (exec .encbuf (keyed 9 [0, 0, 0, 0, 0, 0, 0, 0, 0x18, 0xEE])) (fun t => t.ciph.cbuf ==
    Memory.ofBytes 0 [0x36, 0xEA, 0x07, 0x65, 0xFC, 0x5A, 0x08, 0x6C, 0x18, 0xEE]) = true := by decide +kernel
theorem test_decbuf : nextIs (exec .decbuf (keyed 8 [0x36, 0xEA, 0x07, 0x65, 0xFC, 0x5A, 0x08, 0x6C])) (fun t => t.ciph.cbuf ==
    Memory.ofBytes 0 [0, 0, 0, 0, 0, 0, 0, 0] && cStatus t.ciph == 0x06) = true := by decide +kernel
/-- Vector B6. -/
theorem test_buffer_faults : nextIs (exec .encbuf idle) (fun t => cStatus t.ciph == 0x48) = true ∧
    nextIs (exec .decbuf (keyed 21 [])) (fun t => cStatus t.ciph == 0x2A) = true := by decide
/-- PROG-D step 4: a reserved code while keyed. -/
theorem test_illegal_ccmd :
    nextIs (step (withAct (keyed 0 []) (.writeReg .ciph 0 5))) (fun t => cStatus t.ciph == 0x1A) = true := by decide

/-! ## DCMP -/

/-- The offsets of section 7: short, and long under both readings. -/
theorem test_short_offsets : [0x00, 0x01, 0x7F, 0x80, 0xFE, 0xFF].map shortOffset = [-256, -255, -129, -128, -2, -1] := by
  decide
theorem test_long_offsets : [0x1FFF, 0x1000, 0x0001, 0x0000, 0x0FFF].map (longOffset .sext13) = [-1, -4096, 1, 0, 4095] ∧
    [0x1FFF, 0x1000, 0x0001, 0x0000, 0x0FFF].map (longOffset .orM8192) = [-1, -4096, -8191, -8192, -4097] := by decide
/-- R160: D_ILEN at DIN_CAP starts a run, above it faults. -/
theorem test_dstart : nextIs (exec .dstart { idle with dcmp := { idle.dcmp with dIlen := 12 } })
      (fun t => t.dcmp.ilen == 12 && t.dcmp.status.busy) = true ∧
    nextIs (exec .dstart { idle with dcmp := { idle.dcmp with dIlen := 13 } }) (fun t => dStatus t.dcmp == 0x28) = true := by
  decide
/-- Vector S1, its first token. -/
theorem test_lit : nextIs (step (running [0x05, 0x69, 0, 0] [])) (fun t => t.dcmp.dout == [(0, 0x69)] &&
    t.dcmp.cur.ipos == 2 && t.dcmp.cur.bitcnt == 7) = true := by decide
/-- Vector X15: no room. -/
theorem test_lit_overflow : nextIs (exec (.lit 1) (running [] (List.replicate 16 0))) (fun t => dStatus t.dcmp == 0x68) = true := by
  decide
/-- Vector T4: the copy overlaps what it writes. -/
theorem test_scopy : nextIs (exec (.scopy false true 0xFE) (running [] [0xA1, 0xB2]))
    (fun t => t.dcmp.dout == Memory.ofBytes 0 [0xA1, 0xB2, 0xA1, 0xB2, 0xA1] && t.dcmp.opos == 5) = true := by decide
/-- Vector X11. -/
theorem test_lcopy_underflow : nextIs (exec (.lcopy 0x1FFE 1) (running [] [0x0A])) (fun t => dStatus t.dcmp == 0x58) = true := by
  decide
/-- Vector T7. -/
theorem test_lcopy : nextIs (exec (.lcopy 0x1FFD 1) (running [] [1, 2, 3]))
    (fun t => t.dcmp.dout == Memory.ofBytes 0 [1, 2, 3, 1, 2, 3]) = true := by decide
/-- Vector T9. -/
theorem test_lcopyx : nextIs (exec (.lcopyx 0x1FFD 0) (running [] [1, 2, 3]))
    (fun t => t.dcmp.dout == Memory.ofBytes 0 [1, 2, 3, 1, 2, 3, 1, 2, 3, 1, 2, 3, 1]) = true := by decide
/-- Vector T21: the extension byte is read before the offset is tested. -/
theorem test_lcopyx_nonneg : nextIs (step { running [0x02, 0x08, 0, 0] [0x0A] with hostq := [] })
    (fun t => dStatus t.dcmp == 0x48 && t.dcmp.cur.ipos == 4) = true := by decide
/-- Vectors T1, X17: END needs no capacity. -/
theorem test_end : nextIs (step { running [2, 0, 0] [] with cfg := { params with doutCap := some 0 } })
    (fun t => dStatus t.dcmp == 0x04 && t.dcmp.dOlen == 0 && t.dcmp.dIpos == 3 && t.dcmp.cur.bitcnt == 6) = true := by decide
/-- Vector X8: the ninth control bit finds no byte. -/
theorem test_exhausted : nextIs (step { running [0xFF] [] with dcmp :=
      { (running [0xFF] []).dcmp with cur := { ipos := 1, bitbuf := 0, bitcnt := 0 } } })
    (fun t => dStatus t.dcmp == 0x38) = true := by decide

/-! ## Host interface -/

/-- R70: a busy unit refuses its buffers, its command and its length; its status can be read. -/
theorem test_busy_refuses : step (withAct (running [] []) (.writeByte .din 0 1)) = .refused (.busyAccess .dcmp) := rfl
theorem test_busy_status :
    nextIs (step (withAct (running [] []) (.readReg .dcmp 1))) (fun t => t.hostIn == .word 1) = true := by decide
/-- R239, U7: the operand register of a busy DCMP; an idle one's answers. -/
theorem test_busy_operand_register :
    step (withAct (running [1, 2] []) (.readReg .dcmp 2)) = .refused (.busyAccess .dcmp) := rfl
theorem test_idle_operand_register : nextIs (step (withAct (keyed 19 []) (.readReg .ciph 2)))
    (fun t => t.hostIn == .word 19) = true := by decide
/-- R37: no command reads an unwritten byte (KBUF, CBUF, the stream). -/
theorem test_no_value : exec .keyload (keying 4 [9, 7, 0xC1]) = .fault (.noValue .kbuf 3) ∧
    exec .encbuf (keyed 8 [1, 2, 3]) = .fault (.noValue .cbuf 3) ∧
    step { running [2, 0, 0] [] with dcmp := { (running [2, 0, 0] []).dcmp with din := [(0, 2)] } } =
      .fault (.noValue .din 1) := ⟨rfl, rfl, rfl⟩
/-- Vector K6 in form: of a 76-byte key only the first 72 bytes are read. -/
theorem test_keyload_tail_unread : nextIs (exec .keyload (keying 76 (List.replicate 72 1))) (fun t => t.ciph.keyed) = true := by
  decide +kernel
/-- U6: a host read of a byte without value answers. R50: at the capacity there is no address. -/
theorem test_host_reads_unwritten :
    nextIs (step (withAct idle (.readByte .cbuf 3))) (fun t => t.hostq == []) = true := by decide
theorem test_no_address : step (withAct idle (.writeByte .cbuf 20 0)) = .fault (.noSuchAddress .cbuf 20) := rfl

/-! ## Witnesses: the hypotheses of each obligation can be met -/

theorem witness_EncodeDecodeRoundTrip : [Instr.keyload, .encbuf, .decbuf, .dstart, .lit 255, .scopy true true 255,
    .lcopy 0 7, .lcopyx 1 255, .endMark].all Instr.wf = true := by decide

theorem witness_PackedProgramReadsBack : ∀ i ∈ [Instr.lit 1, .scopy true true 0xFF, .lcopy 0 7, .lcopyx 1 0],
    Instr.isBody i = true ∧ i.wf = true := by decide

/-- A full cache, and an empty one. -/
theorem witness_TokenOccupiesItsLength : (Cursor.mk 0 0 8).bitcnt ≤ 8 ∧
    decodeToken (.ofList [0xFF]) ⟨0, 0, 8⟩ = .ok (.scopy false false 0xFF) ⟨1, 0, 4⟩ ∧ Cursor.start.bitcnt ≤ 8 ∧
    decodeToken (.ofList [1, 7]) .start = .ok (.lit 7) ⟨2, 0, 7⟩ := by decide

theorem witness_NoControlBitsAreIllegal : Cursor.start.bitcnt ≤ 8 ∧
    Cursor.start.ipos + 4 ≤ (Stream.ofList [2, 0, 0x80, 1]).len ∧
    ∀ a, a < (Stream.ofList [2, 0, 0x80, 1]).len → ((Stream.ofList [2, 0, 0x80, 1]).byteAt a).isSome := by decide

/-- One token of each kind, for each clause. -/
theorem witness_PrefixSelectsToken :
    decodeToken (.ofList [1, 7]) .start = .ok (.lit 7) ⟨2, 0, 7⟩ ∧
    decodeToken (.ofList [0, 7]) .start = .ok (.scopy false false 7) ⟨2, 0, 4⟩ ∧
    decodeToken (.ofList [2, 1, 0]) .start = .ok (.lcopy 0 1) ⟨3, 0, 6⟩ ∧
    decodeToken (.ofList [2, 8, 0, 9]) .start = .ok (.lcopyx 1 9) ⟨4, 0, 6⟩ ∧
    decodeToken (.ofList [2, 0, 0]) .start = .ok .endMark ⟨3, 0, 6⟩ := by decide

theorem witness_DecodeReadsOnlyWhatItConsumes :
    decodeToken (.ofList [2, 0, 0, 0xDE]) .start = .ok .endMark ⟨3, 0, 6⟩ ∧ 3 ≤ (Stream.ofList [2, 0, 0]).len ∧
    ∀ a, 0 ≤ a → a < 3 → (Stream.ofList [2, 0, 0]).byteAt a = (Stream.ofList [2, 0, 0, 0xDE]).byteAt a := by decide

/-- Vector S4: the bytes A5 0F, sixteen control bits. -/
theorem witness_ControlBitsFromBitZero : Cursor.start.bitcnt = 0 ∧
    (∀ j, 8 * j < 16 → 0 + j < (Stream.ofList [0xA5, 0x0F]).len ∧
      (Stream.ofList [0xA5, 0x0F]).byteAt (0 + j) = some (if j = 0 then 0xA5 else 0x0F)) ∧
    bitsFrom (.ofList [0xA5, 0x0F]) 16 .start = some [true, false, true, false, false, true, false, true,
      true, true, true, true, false, false, false, false] := by
  refine ⟨rfl, fun j hj => ?_, by decide⟩
  have : j = 0 ∨ j = 1 := by omega
  rcases this with rfl | rfl <;> decide

theorem witness_StepRunsFetchedToken : (running [5, 0x69] []).dcmp.status.busy = true ∧
    decodeToken (running [5, 0x69] []).stream (running [5, 0x69] []).dcmp.cur = .ok (.lit 0x69) ⟨2, 2, 7⟩ ∧
    (running [5, 0x69] []).hostq = [] ∧
    (∃ s : State, s.dcmp.status.busy = true ∧ decodeToken s.stream s.dcmp.cur = .ok (.lit 0x69) ⟨2, 2, 7⟩ ∧
      s.hostq = ⟨0 + 1, .reset⟩ :: []) := by
  refine ⟨by decide, by decide, rfl, { running [5, 0x69] [] with hostq := [⟨1, .reset⟩] }, by decide, by decide, rfl⟩

theorem witness_StepRunsWrittenCommand :
    ((withAct idle (.writeReg .ciph 0 3)).hostq = ⟨0, .writeReg .ciph 0 3⟩ :: [] ∧
      (withAct idle (.writeReg .ciph 0 3)).ciph.status.busy = false ∧ decodeCCmd 3 = some .decbuf) ∧
    (withAct idle (.writeReg .dcmp 0 1)).hostq = ⟨0, .writeReg .dcmp 0 1⟩ :: [] ∧
      (withAct idle (.writeReg .dcmp 0 1)).dcmp.status.busy = false ∧ decodeDCmd 1 = some .dstart := by decide

theorem witness_ReservedCommandsChangeOnlyStatus :
    ((withAct idle (.writeReg .ciph 0 4)).hostq = ⟨0, .writeReg .ciph 0 4⟩ :: [] ∧
      (withAct idle (.writeReg .ciph 0 4)).ciph.status.busy = false ∧ (4 : Word) ≠ 1 ∧ (4 : Word) ≠ 2 ∧ (4 : Word) ≠ 3) ∧
    (withAct idle (.writeReg .dcmp 0 0)).hostq = ⟨0, .writeReg .dcmp 0 0⟩ :: [] ∧
      (withAct idle (.writeReg .dcmp 0 0)).dcmp.status.busy = false ∧ (0 : Word) ≠ 1 := by decide

/-- Vector X4, and vector X1 for the second clause. -/
theorem witness_StreamEndFaults : ((running [2, 0x34] []).hostq = [] ∧ (running [2, 0x34] []).dcmp.status.busy = true ∧
      decodeToken (running [2, 0x34] []).stream (running [2, 0x34] []).dcmp.cur = .stop .exhausted ⟨1, 0, 6⟩) ∧
    (running [] []).dcmp.ilen ≤ (running [] []).dcmp.cur.ipos ∧ (running [] []).dcmp.cur.bitcnt = 0 := by decide

theorem witness_IdleMachineWaits : idle.hostq = [] ∧ idle.dcmp.status.busy = false := by decide

theorem witness_DstartBeginsRun : ∃ s : State, s.dcmp.status.busy = false ∧ s.dcmp.dIlen.toNat = s.cfg.dinCap ∧
    s.dcmp.dIlen.toNat ≤ s.cfg.dinCap :=
  ⟨{ idle with dcmp := { idle.dcmp with dIlen := 12 } }, by decide⟩

theorem witness_DstartTooLongFaults : ∃ s : State, s.dcmp.status.busy = false ∧ s.dcmp.dIlen.toNat = s.cfg.dinCap + 1 ∧
    s.cfg.dinCap < s.dcmp.dIlen.toNat :=
  ⟨{ idle with dcmp := { idle.dcmp with dIlen := 13 } }, by decide⟩

/-- The last byte of room. -/
theorem witness_LitAppendsByte : ∀ c, (running [] (List.replicate 15 0)).cfg.doutCap = some c →
    (running [] (List.replicate 15 0)).dcmp.opos < c := by
  intro c h; cases h; decide

/-- A window of `n` bytes is readable everywhere below `n`. -/
theorem window_readable (n : Nat) (v : Byte) (a : Nat) (ha : a < n) :
    (Memory.read (Memory.ofBytes 0 (List.replicate n v)) a).isSome := by
  have key : ∀ m b, b ≤ a → a < b + m → (Memory.read (Memory.ofBytes b (List.replicate m v)) a).isSome := by
    intro m
    induction m with
    | zero => intro b h1 h2; omega
    | succ m ih =>
      intro b h1 h2
      simp only [List.replicate_succ, Memory.ofBytes, Memory.read]
      split
      · rfl
      · exact ih (b + 1) (by omega) (by omega)
  exact key n 0 (by omega) (by omega)

/-- A run whose window is `n` bytes, with an unbounded output and this reading of long offsets. -/
def window (n : Nat) (mode : LongOffsetMode) : State :=
  { idle with
    cfg := { params with doutCap := none, longOffset := mode }
    dcmp := { idle.dcmp with opos := n, dout := Memory.ofBytes 0 (List.replicate n 7) } }

theorem window_copyReady (n d size : Nat) (mode : LongOffsetMode) (hd : 0 < d) (h : d ≤ n) :
    CopyReady (window n mode) d size :=
  ⟨hd, h, fun a _ ha => window_readable n 7 a ha, fun _ hc => nomatch hc⟩

/-- The nearest and the farthest short copy (vectors S2, T12). -/
theorem witness_ScopyCopies : CopyReady (window 1 .sext13) (256 - (0xFF : Byte).toNat) (2 * true.toNat + false.toNat + 2) ∧
    CopyReady (window 256 .sext13) (256 - (0x00 : Byte).toNat) (2 * true.toNat + true.toNat + 2) :=
  ⟨window_copyReady _ _ _ _ (by decide) (by decide), window_copyReady _ _ _ _ (by decide) (by decide)⟩

/-- Room for exactly the copied bytes (vector X16). -/
theorem witness_ScopyCopies_full : CopyReady (running [] (List.replicate 12 0)) 12 4 := by
  refine ⟨by decide, by decide, fun a _ ha => window_readable 12 0 a ha, fun c h => ?_⟩
  cases h; decide

/-- The nearest and the farthest long copy under each reading (vectors T7, T13; q = 0 under or_m8192). -/
theorem witness_LcopyCopies :
    (LongBack (window 1 .sext13) 0x1FFF ∧ CopyReady (window 1 .sext13) (longDistance 0x1FFF) ((1 : BitVec 3).toNat + 2)) ∧
    (LongBack (window 4096 .sext13) 0x1000 ∧
      CopyReady (window 4096 .sext13) (longDistance 0x1000) ((7 : BitVec 3).toNat + 2)) ∧
    (LongBack (window 8192 .orM8192) 0 ∧ CopyReady (window 8192 .orM8192) (longDistance 0) ((7 : BitVec 3).toNat + 2)) :=
  ⟨⟨.inr (by decide), window_copyReady _ _ _ _ (by decide) (by decide)⟩,
    ⟨.inr (by decide), window_copyReady _ _ _ _ (by decide) (by decide)⟩,
    ⟨.inl rfl, window_copyReady _ _ _ _ (by decide) (by decide)⟩⟩

theorem witness_LcopyxCopies :
    (LongBack (window 1 .sext13) 0x1FFF ∧ CopyReady (window 1 .sext13) (longDistance 0x1FFF) ((255 : Byte).toNat + 10)) ∧
    (LongBack (window 4096 .sext13) 0x1000 ∧
      CopyReady (window 4096 .sext13) (longDistance 0x1000) ((0 : Byte).toNat + 10)) ∧
    (LongBack (window 8191 .orM8192) 1 ∧ CopyReady (window 8191 .orM8192) (longDistance 1) ((0 : Byte).toNat + 10)) :=
  ⟨⟨.inr (by decide), window_copyReady _ _ _ _ (by decide) (by decide)⟩,
    ⟨.inr (by decide), window_copyReady _ _ _ _ (by decide) (by decide)⟩,
    ⟨.inl rfl, window_copyReady _ _ _ _ (by decide) (by decide)⟩⟩

theorem witness_EndStopsRun : ∃ s : State, s.dcmp.opos = 4294967295 ∧ s.dcmp.opos < 2 ^ 32 ∧ s.dcmp.cur.ipos < 2 ^ 32 :=
  ⟨{ idle with dcmp := { idle.dcmp with opos := 4294967295 } }, rfl, by decide, by decide⟩

theorem witness_NonNegativeOffsetFaults : idle.cfg.longOffset = .sext13 ∧ (0x0FFF : BitVec 13).toNat < 4096 := by decide

theorem witness_WindowUnderflowFaults : (running [] []).dcmp.opos < 256 - BitVec.toNat (0xFF : Byte) ∧
    (window 255 .sext13).dcmp.opos < 256 - BitVec.toNat (0 : Byte) ∧
    (LongBack idle 0x1FFF ∧ idle.dcmp.opos < longDistance 0x1FFF) ∧
    LongBack (window 8191 .orM8192) 0 ∧ (window 8191 .orM8192).dcmp.opos < longDistance 0 :=
  ⟨by decide, by decide, ⟨.inr (by decide), by decide⟩, .inl rfl, by decide⟩

/-- A full window: a literal, and each copy at distance 1. -/
theorem witness_OutputOverflowFaults : (running [] (List.replicate 16 0)).cfg.doutCap = some 16 ∧
    16 ≤ (running [] (List.replicate 16 0)).dcmp.opos ∧ 0 < 1 ∧ 1 ≤ (running [] (List.replicate 16 0)).dcmp.opos ∧
    (∀ a, (running [] (List.replicate 16 0)).dcmp.opos - 1 ≤ a → a < (running [] (List.replicate 16 0)).dcmp.opos →
      (Memory.read (running [] (List.replicate 16 0)).dcmp.dout a).isSome) ∧
    (256 - BitVec.toNat (0xFF : Byte) = 1 ∧
      16 < (running [] (List.replicate 16 0)).dcmp.opos + (2 * Bool.toNat false + Bool.toNat false + 2)) ∧
    LongBack (running [] (List.replicate 16 0)) 0x1FFF ∧ longDistance 0x1FFF = 1 ∧
    16 < (running [] (List.replicate 16 0)).dcmp.opos + (BitVec.toNat (1 : BitVec 3) + 2) ∧
    16 < (running [] (List.replicate 16 0)).dcmp.opos + (BitVec.toNat (0 : Byte) + 10) :=
  ⟨rfl, by decide, by decide, by decide, fun a _ ha => window_readable 16 0 a ha, by decide, .inr (by decide), by decide,
    by decide, by decide⟩

/-- Size 5, distance 256. -/
theorem witness_ScopyAndLcopyAgree : LongBack idle 0x1F00 ∧ 2 * true.toNat + true.toNat = (3 : BitVec 3).toNat ∧
    256 - (0 : Byte).toNat = longDistance 0x1F00 :=
  ⟨.inr (by decide), by decide, by decide⟩

theorem witness_RunEndsWithinItsLength : (running [5, 0x69, 0, 0] []).hostq = [] ∧
    (running [5, 0x69, 0, 0] []).dcmp.status.busy = true ∧ (running [5, 0x69, 0, 0] []).dcmp.cur.ipos = 0 ∧
    (running [5, 0x69, 0, 0] []).dcmp.cur.bitcnt = 0 ∧ (running [5, 0x69, 0, 0] []).dcmp.opos = 0 := by decide

/-- Two states that differ in CIPH, in the stream past ilen and in DCMP's registers; the first runs to its end. -/
theorem witness_RunDependsOnlyOnItsInput : ∃ s1 s2 t1 : State, SameRun s1 s2 ∧ s1 ≠ s2 ∧ runFor 2 s1 = .next t1 ∧
    t1.dcmp.status.fault = false ∧ t1.dcmp.status.done = true := by
  refine ⟨running [5, 0x69, 0, 0] [], { running [5, 0x69, 0, 0] [] with
    ciph := (keyed 3 [1]).ciph
    dcmp := { (running [5, 0x69, 0, 0] []).dcmp with dOlen := 9, din := Memory.ofBytes 0 [5, 0x69, 0, 0, 8] } },
    _, ⟨rfl, rfl, rfl, rfl, rfl, rfl, rfl, rfl, by decide, by decide⟩, ?_, rfl, rfl, rfl⟩
  intro h
  have := congrArg (fun s => s.dcmp.dOlen) h
  revert this
  decide

theorem witness_RoundFunctionOnNumbers : (1 : Fin 256).val = (0x01020304 : Word).toNat / 2 ^ 24 ∧
    (2 : Fin 256).val = (0x01020304 : Word).toNat / 2 ^ 16 % 256 ∧
    (3 : Fin 256).val = (0x01020304 : Word).toNat / 2 ^ 8 % 256 ∧ (4 : Fin 256).val = (0x01020304 : Word).toNat % 256 := by
  decide

/-- L of vector K3, after its load and after each iteration. -/
def k3L (j : Nat) : Word :=
  [0x00000000, 0x920261DA, 0x6D0CA975, 0xF60D3908, 0x630DC5BD, 0x3E0170A6, 0xBA00B890, 0x230DA207, 0x650F9BC7].getD j 0
/-- R of vector K3. -/
def k3R (j : Nat) : Word :=
  [0x00000000, 0xF50D375E, 0x0B061CE7, 0x71070A20, 0x600C4470, 0x7B0C9138, 0x6700072B, 0x1000F1AF, 0x6C002B0C].getD j 0
/-- P of vector K3. -/
def k3P (i : Nat) : Word := toyKeyed.p.toList.getD i 0

/-- Vector K3, row by row. -/
theorem witness_EncBlockRounds : (∀ i : Fin 18, k3P i.val = toyKeyed.p.get i) ∧
    k3L 0 = le32 zeroBlock[0] zeroBlock[1] zeroBlock[2] zeroBlock[3] ∧
    k3R 0 = le32 zeroBlock[4] zeroBlock[5] zeroBlock[6] zeroBlock[7] ∧
    (∀ j, j < 8 → k3L j ^^^ k3P (2 * j) = k3L j ^^^ k3P (2 * j) ∧
      k3R (j + 1) = k3R j ^^^ roundF toyKeyed (k3L j ^^^ k3P (2 * j)) ^^^ k3P (2 * j + 1) ∧
      k3L (j + 1) = k3L j ^^^ k3P (2 * j) ^^^ roundF toyKeyed (k3R (j + 1))) ∧
    le32 0x36 0xEA 0x07 0x65 = k3R 8 ^^^ k3P 17 ∧ le32 0xFC 0x5A 0x08 0x6C = k3L 8 ^^^ k3P 16 := by decide +kernel

/-- The same values read backwards, as the proof of 90_conflicts.md C1 pairs them. -/
theorem witness_DecBlockRounds : (∀ i : Fin 18, k3P i.val = toyKeyed.p.get i) ∧
    k3R 8 ^^^ k3P 17 = le32 0x36 0xEA 0x07 0x65 ∧ k3L 8 ^^^ k3P 16 = le32 0xFC 0x5A 0x08 0x6C ∧
    (∀ j, j < 8 →
      k3L (7 - j) ^^^ k3P (16 - 2 * (j + 1)) = k3L (8 - j) ^^^ k3P (16 - 2 * j) ^^^
        roundF toyKeyed (k3R (8 - j) ^^^ k3P (17 - 2 * j) ^^^ k3P (17 - 2 * j)) ^^^ k3P (16 - 2 * j) ∧
      k3R (7 - j) ^^^ k3P (17 - 2 * (j + 1)) = k3R (8 - j) ^^^ k3P (17 - 2 * j) ^^^ k3P (17 - 2 * j) ^^^
        roundF toyKeyed (k3L (7 - j) ^^^ k3P (16 - 2 * (j + 1)))) ∧
    le32 0 0 0 0 = (k3L 0 ^^^ k3P 0) ^^^ k3P 0 ∧ le32 0 0 0 0 = (k3R 0 ^^^ k3P 1) ^^^ k3P 1 := by decide +kernel

/-- The shortest key, and one whose length is KBUF_CAP, written up to its 72nd byte. -/
theorem witness_KeyloadRunsSchedule :
    ((keying 4 [9, 7, 0xC1, 0x2B]).ciph.status.busy = false ∧ (keying 4 [9, 7, 0xC1, 0x2B]).cfg.ks = .decided ∧
      4 ≤ (keying 4 [9, 7, 0xC1, 0x2B]).ciph.cLen.toNat ∧
      (keying 4 [9, 7, 0xC1, 0x2B]).ciph.cLen.toNat ≤ (keying 4 [9, 7, 0xC1, 0x2B]).cfg.kbufCap ∧
      ∀ x, x < 72 → x < 4 * ((keying 4 [9, 7, 0xC1, 0x2B]).ciph.cLen.toNat / 4) →
        Memory.read (keying 4 [9, 7, 0xC1, 0x2B]).ciph.kbuf x = some ([9, 7, 0xC1, 0x2B].getD x 0)) ∧
    ((keying 80 (List.replicate 72 5)).ciph.cLen.toNat = (keying 80 (List.replicate 72 5)).cfg.kbufCap ∧
      ∀ x, x < 72 → x < 4 * ((keying 80 (List.replicate 72 5)).ciph.cLen.toNat / 4) →
        Memory.read (keying 80 (List.replicate 72 5)).ciph.kbuf x = some 5) := by decide +kernel

theorem witness_KeyloadFaultsUnkeyed : ((keying 81 []).ciph.status.busy = false ∧
      (keying 81 []).cfg.kbufCap < (keying 81 []).ciph.cLen.toNat) ∧
    (keying 3 []).ciph.status.busy = false ∧ (keying 3 []).ciph.cLen.toNat ≤ (keying 3 []).cfg.kbufCap ∧
      (keying 3 []).ciph.cLen.toNat < 4 := by decide

/-- Two blocks and a tail, the length at CBUF_CAP. -/
theorem witness_EncbufEncryptsBlocks : (keyed 20 (List.replicate 16 5)).ciph.status.busy = false ∧
    (keyed 20 (List.replicate 16 5)).ciph.cLen.toNat ≤ (keyed 20 (List.replicate 16 5)).cfg.cbufCap ∧
    (keyed 20 (List.replicate 16 5)).ciph.keyed = true ∧
    ∀ x, x < 8 * ((keyed 20 (List.replicate 16 5)).ciph.cLen.toNat / 8) →
      Memory.read (keyed 20 (List.replicate 16 5)).ciph.cbuf x = some 5 := by decide +kernel

theorem witness_DecbufDecryptsBlocks : (keyed 8 (List.replicate 8 5)).ciph.status.busy = false ∧
    (keyed 8 (List.replicate 8 5)).ciph.cLen.toNat ≤ (keyed 8 (List.replicate 8 5)).cfg.cbufCap ∧
    (keyed 8 (List.replicate 8 5)).ciph.keyed = true ∧
    ∀ x, x < 8 * ((keyed 8 (List.replicate 8 5)).ciph.cLen.toNat / 8) →
      Memory.read (keyed 8 (List.replicate 8 5)).ciph.cbuf x = some 5 := by decide +kernel

/-- Both clauses: one past the capacity, and unkeyed at the capacity. -/
theorem witness_BufferCommandFaults : ((keyed 21 []).ciph.status.busy = false ∧
      (keyed 21 []).cfg.cbufCap < (keyed 21 []).ciph.cLen.toNat) ∧
    (keying 20 []).ciph.status.busy = false ∧ (keying 20 []).ciph.cLen.toNat ≤ (keying 20 []).cfg.cbufCap ∧
      (keying 20 []).ciph.keyed = false := by decide

theorem witness_BufferCommandsUndoEachOther : ∃ t : State, exec .encbuf (keyed 8 (List.replicate 8 5)) = .next t ∧
    t.ciph.status.fault = false := ⟨_, rfl, rfl⟩

theorem witness_BufferCommandsPreserve : ∃ t : State, exec .decbuf (keyed 9 (List.replicate 9 5)) = .next t := ⟨_, rfl⟩

theorem witness_ShortBuffersAreDone : (keyed 7 [1]).ciph.status.busy = false ∧
    (keyed 7 [1]).ciph.cLen.toNat ≤ (keyed 7 [1]).cfg.cbufCap ∧ (keyed 7 [1]).ciph.keyed = true ∧
    (keyed 7 [1]).ciph.cLen.toNat < 8 := by decide

/-- The second block of one buffer and the first of another (vector B5 (b)). -/
theorem witness_BlocksAreIndependent : ∃ t t' : State,
    (keyed 16 (List.replicate 16 5)).ciph.tab = (keyed 8 (List.replicate 8 5)).ciph.tab ∧
    exec .encbuf (keyed 16 (List.replicate 16 5)) = .next t ∧ exec .encbuf (keyed 8 (List.replicate 8 5)) = .next t' ∧
    t.ciph.status.fault = false ∧ t'.ciph.status.fault = false ∧
    1 < (keyed 16 (List.replicate 16 5)).ciph.cLen.toNat / 8 ∧ 0 < (keyed 8 (List.replicate 8 5)).ciph.cLen.toNat / 8 ∧
    ∀ j, j < 8 → Memory.read (keyed 16 (List.replicate 16 5)).ciph.cbuf (8 * 1 + j) =
      Memory.read (keyed 8 (List.replicate 8 5)).ciph.cbuf (8 * 0 + j) :=
  ⟨_, _, rfl, rfl, rfl, rfl, rfl, by decide, by decide, by decide +kernel⟩

/-- Vector K4 (5 and 7 bytes), and vector K6 in form (72 and 76 bytes). -/
theorem witness_KeyTailIsIgnored : (∃ t t' : State, (keying 5 [9, 7, 1, 2, 3]).cfg = (keying 7 [9, 7, 1, 2, 4, 4, 4]).cfg ∧
      exec .keyload (keying 5 [9, 7, 1, 2, 3]) = .next t ∧ exec .keyload (keying 7 [9, 7, 1, 2, 4, 4, 4]) = .next t' ∧
      t.ciph.keyed = true ∧ t'.ciph.keyed = true ∧
      (keying 5 [9, 7, 1, 2, 3]).ciph.cLen.toNat / 4 = (keying 7 [9, 7, 1, 2, 4, 4, 4]).ciph.cLen.toNat / 4 ∧
      ∀ x, x < 72 → x < 4 * ((keying 5 [9, 7, 1, 2, 3]).ciph.cLen.toNat / 4) →
        Memory.read (keying 5 [9, 7, 1, 2, 3]).ciph.kbuf x = Memory.read (keying 7 [9, 7, 1, 2, 4, 4, 4]).ciph.kbuf x) ∧
    ∃ t t' : State, exec .keyload (keying 72 (List.replicate 72 1)) = .next t ∧
      exec .keyload (keying 76 (List.replicate 72 1 ++ [2, 2, 2, 2])) = .next t' ∧
      t.ciph.keyed = true ∧ t'.ciph.keyed = true ∧ 18 ≤ (keying 72 (List.replicate 72 1)).ciph.cLen.toNat / 4 ∧
      18 ≤ (keying 76 (List.replicate 72 1 ++ [2, 2, 2, 2])).ciph.cLen.toNat / 4 ∧
      ∀ x, x < 72 → x < 4 * ((keying 72 (List.replicate 72 1)).ciph.cLen.toNat / 4) →
        Memory.read (keying 72 (List.replicate 72 1)).ciph.kbuf x =
          Memory.read (keying 76 (List.replicate 72 1 ++ [2, 2, 2, 2])).ciph.kbuf x :=
  ⟨⟨_, _, rfl, rfl, rfl, rfl, rfl, by decide, by decide⟩, ⟨_, _, rfl, rfl, rfl, rfl, by decide, by decide, by decide +kernel⟩⟩

theorem witness_RekeyingForgetsTheOldKey : ∃ t : State, exec .keyload (keying 4 [9, 7, 0xC1, 0x2B]) = .next t ∧
    t.ciph.keyed = true := ⟨_, rfl, rfl⟩

/-- A command that is done, and one that faults with each code. -/
theorem witness_CiphCommandsEndDoneOrFaulted :
    (Instr.isCiph .keyload = true ∧ ∃ t : State, exec .keyload (keying 4 [9, 7, 1, 2]) = .next t ∧ t.ciph.status.done = true) ∧
    (Instr.isCiph .encbuf = true ∧ ∃ t : State, exec .encbuf idle = .next t ∧ t.ciph.status.cause = 4) ∧
    (∃ t : State, exec .keyload (keying 3 []) = .next t ∧ t.ciph.status.cause = 3) ∧
    ∃ t : State, exec .decbuf (keyed 21 []) = .next t ∧ t.ciph.status.cause = 2 :=
  ⟨⟨rfl, _, rfl, rfl⟩, ⟨rfl, _, rfl, rfl⟩, ⟨_, rfl, rfl⟩, ⟨_, rfl, rfl⟩⟩

theorem witness_InputsAreNeverWritten : (∃ t : State, exec (.lit 5) (running [] [1]) = .next t ∧ (Instr.lit 5) ≠ .dstart) ∧
    ∃ t : State, exec .keyload (keying 4 [9, 7, 1, 2]) = .next t ∧ Instr.keyload ≠ .dstart :=
  ⟨⟨_, rfl, by decide⟩, ⟨_, rfl, by decide⟩⟩

theorem witness_UnitsShareNoState :
    (∃ t : State, exec .encbuf (keyed 8 (List.replicate 8 5)) = .next t ∧ Instr.isCiph .encbuf = true) ∧
    ∃ t : State, exec (.scopy false true 0xFE) (running [] [1, 2]) = .next t ∧
      Instr.isCiph (.scopy false true 0xFE) = false :=
  ⟨⟨_, rfl, rfl⟩, ⟨_, rfl, rfl⟩⟩

/-- A keyed machine in a run: a token, and ENCBUF. -/
theorem witness_OnlyKeyloadChangesTables :
    (∃ t : State, step (running [5, 0x69] []) = .next t ∧
      (∀ rest, (running [5, 0x69] []).hostq ≠ ⟨0, .writeReg .ciph 0 1⟩ :: rest) ∧
      ∀ rest, (running [5, 0x69] []).hostq ≠ ⟨0, .reset⟩ :: rest) ∧
    ∃ t : State, step (withAct (keyed 8 (List.replicate 8 5)) (.writeReg .ciph 0 2)) = .next t ∧
      (∀ rest, (withAct (keyed 8 (List.replicate 8 5)) (.writeReg .ciph 0 2)).hostq ≠ ⟨0, .writeReg .ciph 0 1⟩ :: rest) ∧
      ∀ rest, (withAct (keyed 8 (List.replicate 8 5)) (.writeReg .ciph 0 2)).hostq ≠ ⟨0, .reset⟩ :: rest := by
  refine ⟨⟨_, rfl, fun _ h => ?_, fun _ h => ?_⟩, ⟨_, rfl, fun _ h => ?_, fun _ h => ?_⟩⟩
  · exact nomatch h
  · exact nomatch h
  · exact absurd (List.cons.inj h).1 (by decide)
  · exact absurd (List.cons.inj h).1 (by decide)

theorem witness_ParametersAreConstant : ∃ t : State, step (withAct (running [] []) .reset) = .next t := ⟨_, rfl⟩

/-- A sound state in the middle of a run, and its next step. -/
theorem witness_StepKeepsSoundState : (running [5, 0x69, 0, 0] [1, 2]).Inv ∧
    ∃ t : State, step (running [5, 0x69, 0, 0] [1, 2]) = .next t := by
  refine ⟨⟨⟨by decide, by decide, by decide, by decide, fun n h => ?_⟩, ⟨rfl, ⟨?_, ?_, ?_, ?_⟩, ?_, ?_⟩, ?_⟩, _, rfl⟩
  · cases h; decide
  · exact fun h => nomatch h
  · exact fun h => nomatch h
  · exact fun _ => rfl
  · exact fun h => nomatch h
  · exact ⟨List.Pairwise.nil, fun x h => nomatch h⟩
  · exact ⟨List.Pairwise.nil, fun x h => nomatch h⟩
  · refine ⟨by decide, by decide, fun _ => by decide, fun c h => ?_, fun _ => by decide, (fun h => nomatch h),
      ⟨fun _ => by decide, (fun h => nomatch h), fun _ => rfl, (fun h => nomatch h)⟩, ⟨by decide, ?_⟩, by decide, fun c h => ?_⟩
    · cases h; decide
    · exact fun x h => by revert x; decide
    · cases h; exact fun x h => by revert x; decide

theorem witness_BusyUnitRefusesHost : (running [] []).dcmp.status.busy = true ∧
    ∃ s : State, s.ciph.status.busy = true :=
  ⟨rfl, { idle with ciph := { idle.ciph with status := idle.ciph.status.start } }, rfl⟩

/-- Every register of idle units, and those a busy DCMP lets a host read. -/
theorem witness_HostReadsRegisters :
    [(UnitId.ciph, 0), (.ciph, 1), (.ciph, 2), (.dcmp, 0), (.dcmp, 1), (.dcmp, 2), (.dcmp, 3), (.dcmp, 4)].all
      (fun x => (withAct idle (.readReg x.1 x.2)).hostq == [⟨0, .readReg x.1 x.2⟩]) = true ∧
    idle.ciph.status.busy = false ∧ idle.dcmp.status.busy = false ∧
    (running [] []).dcmp.status.busy = true ∧
    (withAct (running [] []) (.readReg .dcmp 3)).hostq = ⟨0, .readReg .dcmp 3⟩ :: [] := by decide

theorem witness_BusyOperandRegisterIsNotRead :
    (∃ s : State, s.hostq = ⟨0, .readReg .ciph 2⟩ :: [] ∧ s.ciph.status.busy = true) ∧
    (withAct (running [] []) (.readReg .dcmp 2)).hostq = ⟨0, .readReg .dcmp 2⟩ :: [] ∧
    (withAct (running [] []) (.readReg .dcmp 2)).dcmp.status.busy = true :=
  ⟨⟨withAct { idle with ciph := { idle.ciph with status := idle.ciph.status.start } } (.readReg .ciph 2), rfl, rfl⟩, rfl, rfl⟩

/-- The last address of each buffer the host reads, with a value in CBUF and without one in DOUT. -/
theorem witness_HostReadsBytes :
    (∃ s : State, s.hostq = ⟨0, .readByte .cbuf 19⟩ :: [] ∧ s.ciph.status.busy = false ∧ 19 < s.cfg.cbufCap ∧
      Memory.read s.ciph.cbuf 19 = some 5) ∧
    (withAct idle (.readByte .dout 15)).hostq = ⟨0, .readByte .dout 15⟩ :: [] ∧ idle.dcmp.status.busy = false ∧
      ∀ c, idle.cfg.doutCap = some c → 15 < c := by
  refine ⟨⟨withAct (keyed 0 (List.replicate 20 5)) (.readByte .cbuf 19), by decide +kernel⟩, rfl, rfl, ?_⟩
  intro c h; cases h; decide

/-- The last address of each buffer the host writes. -/
theorem witness_HostWritesLand : (idle.ciph.status.busy = false ∧ 79 < idle.cfg.kbufCap ∧ 19 < idle.cfg.cbufCap) ∧
    idle.dcmp.status.busy = false ∧ 11 < idle.cfg.dinCap := by decide

/-- A reset in the middle of a run. -/
theorem witness_ResetGivesResetValues : (withAct (running [5, 0x69] [1]) .reset).hostq = ⟨0, .reset⟩ :: [] ∧
    (withAct (running [5, 0x69] [1]) .reset).dcmp.status.busy = true := by decide

theorem witness_SignHandling : (0x0FFF : BitVec 13).toNat < 4096 ∧ 4096 ≤ (0x1000 : BitVec 13).toNat ∧ 8 < 9 ∧
    (0x7F : Byte).toNat < 128 ∧ 128 ≤ (0x80 : Byte).toNat := by decide

theorem witness_LongOffsetReadings : 4096 ≤ (0x1000 : BitVec 13).toNat ∧ (0x0FFF : BitVec 13).toNat < 4096 := by decide

end Sys2Proof.Machine.Tests
end

section
/-! SUPPORT. What the host's writes can do: one inversion lemma per write (R31, R32, R50, R80, R81). -/

namespace Sys2Proof.Machine

/-- A write to C_CMD that answers (R80, R81, R206). -/
theorem writeCCmd_next {s t : State} {v : Word} (h : writeCCmd v s = .next t) :
    s.ciph.status.busy = false ∧
    ((∃ i, decodeCCmd v = some i ∧ exec i s = .next t) ∨ (decodeCCmd v = none ∧ t = illegalC s)) := by
  unfold writeCCmd at h
  split at h
  · cases h
  · rename_i hb
    refine ⟨by simpa using hb, ?_⟩
    split at h
    · rename_i i hi
      exact .inl ⟨i, hi, h⟩
    · rename_i hn
      exact .inr ⟨hn, (Host.Outcome.next.inj h).symm⟩

/-- A write to D_CMD that answers (R80, R81, R206). -/
theorem writeDCmd_next {s t : State} {v : Word} (h : writeDCmd v s = .next t) :
    s.dcmp.status.busy = false ∧
    ((∃ i, decodeDCmd v = some i ∧ exec i s = .next t) ∨ (decodeDCmd v = none ∧ t = illegalD s)) := by
  unfold writeDCmd at h
  split at h
  · cases h
  · rename_i hb
    refine ⟨by simpa using hb, ?_⟩
    split at h
    · rename_i i hi
      exact .inl ⟨i, hi, h⟩
    · rename_i hn
      exact .inr ⟨hn, (Host.Outcome.next.inj h).symm⟩

/-- A write to a register of CIPH that answers: a command, or the length (R31). -/
theorem writeCReg_next {s t : State} {no : Nat} {v : Word} (h : writeCReg no v s = .next t) :
    (no = 0 ∧ writeCCmd v s = .next t) ∨
    (no = 2 ∧ s.ciph.status.busy = false ∧ t = { s with ciph := { s.ciph with cLen := v } }) := by
  unfold writeCReg at h
  split at h
  · exact .inl ⟨rfl, h⟩
  · cases h
  · split at h
    · cases h
    · rename_i hb
      exact .inr ⟨rfl, by simpa using hb, (Host.Outcome.next.inj h).symm⟩
  · cases h

/-- A write to a register of DCMP that answers: a command, or the length (R32). -/
theorem writeDReg_next {s t : State} {no : Nat} {v : Word} (h : writeDReg no v s = .next t) :
    (no = 0 ∧ writeDCmd v s = .next t) ∨
    (no = 2 ∧ s.dcmp.status.busy = false ∧ t = { s with dcmp := { s.dcmp with dIlen := v } }) := by
  unfold writeDReg at h
  split at h
  · exact .inl ⟨rfl, h⟩
  · cases h
  · split at h
    · cases h
    · rename_i hb
      exact .inr ⟨rfl, by simpa using hb, (Host.Outcome.next.inj h).symm⟩
  · cases h
  · cases h
  · cases h

/-- A host access to a byte that answers: the unit is idle and the address is below the capacity. -/
theorem byteAccess_next {t u : State} {b : Bool} {r : Refusal} {f : Fault} {cap a : Nat}
    (h : (if b then .refused r else if cap ≤ a then .fault f else .next u : Out) = .next t) :
    b = false ∧ a < cap ∧ t = u := by
  split at h
  · cases h
  · rename_i hb
    split at h
    · cases h
    · rename_i ha
      exact ⟨by simpa using hb, Nat.lt_of_not_le ha, (Host.Outcome.next.inj h).symm⟩

/-- A host write of a byte that answers: the unit is idle, the address exists, and that byte of that buffer is all that
changes (R50, R70). -/
theorem hostWriteByte_next {s t : State} {sp : Space} {a : Nat} {v : Byte} (h : hostWriteByte sp a v s = .next t) :
    (sp = .kbuf ∧ s.ciph.status.busy = false ∧ a < s.cfg.kbufCap ∧
      t = { s with ciph := { s.ciph with kbuf := Memory.write s.ciph.kbuf a v } }) ∨
    (sp = .cbuf ∧ s.ciph.status.busy = false ∧ a < s.cfg.cbufCap ∧
      t = { s with ciph := { s.ciph with cbuf := Memory.write s.ciph.cbuf a v } }) ∨
    (sp = .din ∧ s.dcmp.status.busy = false ∧ a < s.cfg.dinCap ∧
      t = { s with dcmp := { s.dcmp with din := Memory.write s.dcmp.din a v } }) := by
  cases sp with
  | dout => cases h
  | kbuf =>
    obtain ⟨hb, ha, e⟩ := byteAccess_next h
    exact .inl ⟨rfl, hb, ha, e⟩
  | cbuf =>
    obtain ⟨hb, ha, e⟩ := byteAccess_next h
    exact .inr (.inl ⟨rfl, hb, ha, e⟩)
  | din =>
    obtain ⟨hb, ha, e⟩ := byteAccess_next h
    exact .inr (.inr ⟨rfl, hb, ha, e⟩)

end Sys2Proof.Machine
end

section
/-! Noninterference of the two units (R1, R72, R213). One equation per meaning says that it commutes with replacing the
other unit's whole state; that the other unit stays as it is follows from it, by replacing that unit with itself. -/

namespace Sys2Proof.Machine

/-- An answer with its next state, where it has one, passed through `g`. -/
def onNext (g : State → State) : Out → Out
  | .next t => .next (g t)
  | .fault r => .fault r
  | .refused r => .refused r

/-- A meaning that does the same before and after `g`, its stops included. -/
def CommutesWith (g : State → State) (m : State → Out) : Prop := ∀ s, m (g s) = onNext g (m s)

/-- A state with another CIPH. -/
def State.setCiph (c : Ciph) (s : State) : State := { s with ciph := c }

/-- A state with another DCMP. -/
def State.setDcmp (d : Dcmp) (s : State) : State := { s with dcmp := d }

theorem CommutesWith.next {g : State → State} {m : State → Out} (hg : CommutesWith g m) {s t : State}
    (h : m s = .next t) : m (g s) = .next (g t) := by
  rw [hg s, h]
  rfl

/-- A test that `g` does not change, between two meanings that commute with `g`. -/
theorem CommutesWith.ite {g : State → State} {p : State → Prop} [DecidablePred p] {m m' : State → Out}
    (hp : ∀ s, p (g s) ↔ p s) (hm : CommutesWith g m) (hm' : CommutesWith g m') :
    CommutesWith g fun s => if p s then m s else m' s := by
  intro s
  by_cases h : p s
  · simp only [if_pos ((hp s).2 h), if_pos h, hm s]
  · simp only [if_neg (mt (hp s).1 h), if_neg h, hm' s]

/-- A meaning that commutes with `g` keeps every state that `g` fixes among the states that `g` fixes. -/
theorem CommutesWith.next_fixed {g : State → State} {m : State → Out} (hg : CommutesWith g m) {s t : State}
    (hs : g s = s) (h : m s = .next t) : g t = t := by
  have hgt := hg.next h
  rw [hs, h] at hgt
  exact (Host.Outcome.next.inj hgt).symm

theorem dcmp_eq_of_commutesWith {m : State → Out} (hm : ∀ d, CommutesWith (State.setDcmp d) m) {s t : State}
    (h : m s = .next t) : t.dcmp = s.dcmp :=
  (congrArg State.dcmp ((hm s.dcmp).next_fixed rfl h)).symm

theorem ciph_eq_of_commutesWith {m : State → Out} (hm : ∀ c, CommutesWith (State.setCiph c) m) {s t : State}
    (h : m s = .next t) : t.ciph = s.ciph :=
  (congrArg State.ciph ((hm s.ciph).next_fixed rfl h)).symm

/-! ## The commands of CIPH -/

theorem cryptBuf_commutesWith_setDcmp (f : Tables → Block → Block) (d : Dcmp) :
    CommutesWith (State.setDcmp d) (cryptBuf f) := by
  refine .ite (fun _ => Iff.rfl) (fun _ => rfl) (.ite (fun _ => Iff.rfl) (fun _ => rfl)
    (.ite (fun _ => Iff.rfl) (fun _ => rfl) fun s => ?_))
  simp only [State.setDcmp]
  split <;> rfl

theorem loadKey_commutesWith_setDcmp (d : Dcmp) : CommutesWith (State.setDcmp d) loadKey := by
  refine .ite (fun _ => Iff.rfl) (fun _ => rfl) (.ite (fun _ => Iff.rfl) (fun _ => rfl) fun s => ?_)
  simp only [State.setDcmp]
  split <;> rfl

theorem execKeyload_commutesWith_setDcmp (d : Dcmp) : CommutesWith (State.setDcmp d) execKeyload :=
  .ite (fun _ => Iff.rfl) (fun _ => rfl) fun s =>
    loadKey_commutesWith_setDcmp d (startC { s with ciph := { s.ciph with keyed := false } })

theorem exec_commutesWith_setDcmp {i : Instr} (hi : Instr.isCiph i = true) (d : Dcmp) :
    CommutesWith (State.setDcmp d) (exec i) := by
  cases i with
  | keyload => exact execKeyload_commutesWith_setDcmp d
  | encbuf => exact cryptBuf_commutesWith_setDcmp encBlock d
  | decbuf => exact cryptBuf_commutesWith_setDcmp decBlock d
  | dstart | lit | scopy | lcopy | lcopyx | endMark => cases hi

/-! ## DSTART and the tokens -/

theorem execDstart_commutesWith_setCiph (c : Ciph) : CommutesWith (State.setCiph c) execDstart :=
  .ite (fun _ => Iff.rfl) (fun _ => rfl) (.ite (fun _ => Iff.rfl) (fun _ => rfl) fun _ => rfl)

/-- A token whose window operations do not depend on CIPH does not depend on it at all. -/
theorem finishToken_commutesWith_setCiph {r : State → WinOut Win} (c : Ciph) (hr : ∀ s, r (s.setCiph c) = r s) :
    CommutesWith (State.setCiph c) fun s => finishToken s (r s) := by
  intro s
  simp only [hr]
  cases r s with
  | ok w => rfl
  | raise k => rfl
  | noValue a => rfl

theorem exec_commutesWith_setCiph {i : Instr} (hi : Instr.isCiph i = false) (c : Ciph) :
    CommutesWith (State.setCiph c) (exec i) := by
  cases i with
  | keyload | encbuf | decbuf => cases hi
  | dstart => exact execDstart_commutesWith_setCiph c
  | lit v => exact finishToken_commutesWith_setCiph c fun _ => rfl
  | scopy a b o => exact finishToken_commutesWith_setCiph c fun _ => rfl
  | lcopy q sz => exact finishToken_commutesWith_setCiph c fun _ => rfl
  | lcopyx q n => exact finishToken_commutesWith_setCiph c fun _ => rfl
  | endMark => exact fun _ => rfl

/-- Settles O44: each instruction commutes with replacing the unit it is not of. -/
theorem unitsShareNoState : Obligations.UnitsShareNoState := by
  intro s t i h
  constructor
  · intro hi
    exact ⟨dcmp_eq_of_commutesWith (exec_commutesWith_setDcmp hi) h, fun d => (exec_commutesWith_setDcmp hi d).next h⟩
  · intro hi
    exact ⟨ciph_eq_of_commutesWith (exec_commutesWith_setCiph hi) h, fun c => (exec_commutesWith_setCiph hi c).next h⟩

end Sys2Proof.Machine
end

section
/-! The parameters stay as they are (R6, R112, R230, R240): for every instruction, every host action, every step. -/

namespace Sys2Proof.Machine

theorem cryptBuf_cfg {f : Tables → Block → Block} {s t : State} (h : cryptBuf f s = .next t) : t.cfg = s.cfg := by
  obtain ⟨_, ⟨_, rfl⟩ | ⟨_, _, rfl⟩ | ⟨_, _, m, _, rfl⟩⟩ := cryptBuf_next h
  · rfl
  · rfl
  · rfl

theorem execKeyload_cfg {s t : State} (h : execKeyload s = .next t) : t.cfg = s.cfg := by
  obtain ⟨_, ⟨_, rfl⟩ | ⟨_, _, rfl⟩ | ⟨_, _, k, _, rfl⟩⟩ := execKeyload_next h
  · rfl
  · rfl
  · rfl

theorem execDstart_cfg {s t : State} (h : execDstart s = .next t) : t.cfg = s.cfg := by
  obtain ⟨_, ⟨_, rfl⟩ | ⟨_, rfl⟩⟩ := execDstart_next h
  · rfl
  · rfl

theorem TokenNext.cfg {s t : State} (h : TokenNext s t) : t.cfg = s.cfg := by
  cases h with
  | moved w _ e => rw [e]; rfl
  | raised c e => rw [e]; rfl

theorem exec_cfg {i : Instr} {s t : State} (h : exec i s = .next t) : t.cfg = s.cfg := by
  cases i with
  | keyload => exact execKeyload_cfg h
  | encbuf => exact cryptBuf_cfg h
  | decbuf => exact cryptBuf_cfg h
  | dstart => exact execDstart_cfg h
  | lit v => exact (execLit_next h).cfg
  | scopy a b o => exact (execScopy_next h).cfg
  | lcopy q sz => exact (execLcopy_next h).cfg
  | lcopyx q n => exact (execLcopyx_next h).cfg
  | endMark => cases h; rfl

theorem writeCReg_cfg {no : Nat} {v : Word} {s t : State} (h : writeCReg no v s = .next t) : t.cfg = s.cfg := by
  obtain ⟨_, hc⟩ | ⟨_, _, rfl⟩ := writeCReg_next h
  · obtain ⟨_, ⟨i, _, he⟩ | ⟨_, rfl⟩⟩ := writeCCmd_next hc
    · exact exec_cfg he
    · rfl
  · rfl

theorem writeDReg_cfg {no : Nat} {v : Word} {s t : State} (h : writeDReg no v s = .next t) : t.cfg = s.cfg := by
  obtain ⟨_, hc⟩ | ⟨_, _, rfl⟩ := writeDReg_next h
  · obtain ⟨_, ⟨i, _, he⟩ | ⟨_, rfl⟩⟩ := writeDCmd_next hc
    · exact exec_cfg he
    · rfl
  · rfl

theorem hostWriteByte_cfg {sp : Space} {a : Nat} {v : Byte} {s t : State} (h : hostWriteByte sp a v s = .next t) :
    t.cfg = s.cfg := by
  obtain ⟨_, _, _, rfl⟩ | ⟨_, _, _, rfl⟩ | ⟨_, _, _, rfl⟩ := hostWriteByte_next h
  · rfl
  · rfl
  · rfl

theorem hostAct_cfg {a : HostAct} {s t : State} (h : hostAct a s = .next t) : t.cfg = s.cfg := by
  cases a with
  | writeReg u no v =>
    cases u with
    | ciph => exact writeCReg_cfg h
    | dcmp => exact writeDReg_cfg h
  | readReg u no =>
    obtain ⟨_, w, _, rfl⟩ := hostReadReg_next h
    rfl
  | writeByte sp n v => exact hostWriteByte_cfg h
  | readByte sp n =>
    obtain ⟨b, rfl, _⟩ := hostReadByte_next h
    rfl
  | reset => cases h; rfl

/-- Settles O46, by what a step can be: a host action, an idle turn, a token, or the end of a stream that ran out. -/
theorem parametersAreConstant : Obligations.ParametersAreConstant := by
  intro s t h
  cases step_next h with
  | host a rest _ e => simpa using hostAct_cfg e
  | idle q _ e => rw [e]
  | token q i c _ _ e => simpa using exec_cfg e
  | exhausted q c _ _ e => rw [e]; rfl

end Sys2Proof.Machine
end

section
/-! Sign handling (R10). -/

namespace Sys2Proof.Machine

theorem sext13_of_lt {q : BitVec 13} (h : q.toNat < 4096) : sext13 q = q.toNat := if_pos h

theorem sext13_of_le {q : BitVec 13} (h : 4096 ≤ q.toNat) : sext13 q = (q.toNat : Int) - 8192 :=
  if_neg (Nat.not_lt.2 h)

/-- sext13 is the two's-complement reading of 13 bits. -/
theorem sext13_eq_toInt (q : BitVec 13) : sext13 q = q.toInt := by
  rw [BitVec.toInt_eq_toNat_cond]
  split
  · exact sext13_of_lt (by omega)
  · exact sext13_of_le (by omega)

/-- A byte's two's-complement reading, extended to more bits. -/
theorem toInt_signExtend_byte {n : Nat} (u : Byte) (hn : 8 < n) :
    (BitVec.signExtend n u).toInt = if u.toNat < 128 then (u.toNat : Int) else (u.toNat : Int) - 256 := by
  rw [BitVec.toInt_signExtend_of_le hn.le, BitVec.toInt_eq_toNat_cond]
  split <;> split <;> omega

/-- The bits of -0x100: zero below bit 8, one from there on. -/
theorem getElem_ofInt_neg_256 {n i : Nat} (hi : i < n) : (BitVec.ofInt n (-256))[i] = decide (8 ≤ i) := by
  have h : BitVec.ofInt n (-256) = ~~~BitVec.ofNat n 255 := BitVec.ofInt_negSucc_eq_not_ofNat
  have hbit : Nat.testBit 255 i = decide (¬ 8 ≤ i) :=
    (Nat.testBit_two_pow_sub_one 8 i).trans (decide_eq_decide.2 Nat.not_le.symm)
  rw [h, BitVec.getElem_not, ← BitVec.getLsbD_eq_getElem, BitVec.getLsbD_ofNat, hbit, decide_not]
  simp [hi]

/-- The or with -0x100 keeps the low eight bits of `u` and sets every higher bit; the two have no bit in common, so it is
`u` without its sign plus -0x100. -/
theorem signExtend_or_neg_256 (n : Nat) (u : Byte) :
    BitVec.signExtend n u ||| BitVec.ofInt n (-256) = BitVec.ofInt n ((u.toNat : Int) - 256) := by
  have bits : BitVec.signExtend n u ||| BitVec.ofInt n (-256) = BitVec.setWidth n u ||| BitVec.ofInt n (-256) := by
    ext i hi
    by_cases h8 : i < 8
    · simp [BitVec.getElem_signExtend, BitVec.getLsbD_eq_getElem, h8]
    · simp [getElem_ofInt_neg_256 hi, Nat.not_lt.1 h8]
  have disjoint : BitVec.setWidth n u &&& BitVec.ofInt n (-256) = 0#n := by
    ext i hi
    by_cases h8 : i < 8
    · simp [getElem_ofInt_neg_256 hi, h8]
    · simp [BitVec.getLsbD_of_ge u i (Nat.not_lt.1 h8)]
  calc
    _ = BitVec.setWidth n u + BitVec.ofInt n (-256) := by rw [bits, BitVec.add_eq_or_of_and_eq_zero _ _ disjoint]
    _ = BitVec.ofInt n ((u.toNat : Int) - 256) := by
      rw [sub_eq_add_neg, BitVec.ofInt_add, BitVec.ofInt_natCast, BitVec.ofNat_toNat]

theorem toInt_signExtend_or_neg_256 {n : Nat} (u : Byte) (hn : 8 < n) :
    (BitVec.signExtend n u ||| BitVec.ofInt n (-256)).toInt = (u.toNat : Int) - 256 := by
  have hpow : (2 : Int) ^ 8 ≤ 2 ^ (n - 1) := pow_le_pow_right₀ (by decide) (by omega)
  have hu := u.isLt
  rw [signExtend_or_neg_256, BitVec.toInt_ofInt_eq_self (by omega) (by omega) (by omega)]

/-- Settles O55: sext13 and s8 as the two's-complement readings, and the or with -0x100 bit by bit. -/
theorem signHandling : Obligations.SignHandling := by
  constructor
  · intro q
    exact ⟨sext13_of_lt, sext13_of_le, sext13_eq_toInt q⟩
  · intro n u hn
    refine ⟨fun h => ?_, fun h => ?_, toInt_signExtend_or_neg_256 u hn, rfl⟩
    · rw [toInt_signExtend_byte u hn, if_pos h]
    · rw [toInt_signExtend_byte u hn, if_neg (Nat.not_lt.2 h)]

end Sys2Proof.Machine
end

section
/-! Which instructions each decoder can answer: a write to C_CMD a command of CIPH, a write to D_CMD DSTART (R80), the
stream a token (R84). -/

namespace Sys2Proof.Machine

/-- A command word is its code where the bits above the code are zero (R80). -/
theorem eq_of_extractLsb'_zero {n : Nat} {v : Word} {k : BitVec n} (hn : n ≤ 32)
    (hhigh : v.extractLsb' n (32 - n) = 0) (hlow : v.extractLsb' 0 n = k) : v = k.setWidth 32 := by
  ext i hi
  have high : (v.extractLsb' n (32 - n)).getLsbD (i - n) = false := by rw [hhigh]; simp
  have low : (v.extractLsb' 0 n).getLsbD i = k.getLsbD i := by rw [hlow]
  by_cases h : i < n
  · simpa [h, BitVec.getLsbD_eq_getElem hi] using low
  · have hin : n + (i - n) = i := by omega
    have hlt : i - n < 32 - n := by omega
    simpa [hin, hlt, BitVec.getLsbD_eq_getElem hi, BitVec.getLsbD_of_ge k i (Nat.not_lt.1 h)] using high

/-- What a write to C_CMD can stand for (R80). -/
theorem decodeCCmd_some {v : Word} {i : Instr} (h : decodeCCmd v = some i) :
    (i = .keyload ∧ v = 1) ∨ (i = .encbuf ∧ v = 2) ∨ (i = .decbuf ∧ v = 3) := by
  unfold decodeCCmd at h
  split at h
  · rename_i hhigh
    split at h
    · rename_i hlow
      exact .inl ⟨(Option.some.inj h).symm, eq_of_extractLsb'_zero (by decide) hhigh hlow⟩
    · split at h
      · rename_i hlow
        exact .inr (.inl ⟨(Option.some.inj h).symm, eq_of_extractLsb'_zero (by decide) hhigh hlow⟩)
      · split at h
        · rename_i hlow
          exact .inr (.inr ⟨(Option.some.inj h).symm, eq_of_extractLsb'_zero (by decide) hhigh hlow⟩)
        · cases h
  · cases h

theorem isCiph_of_decodeCCmd {v : Word} {i : Instr} (h : decodeCCmd v = some i) : Instr.isCiph i = true := by
  obtain ⟨rfl, _⟩ | ⟨rfl, _⟩ | ⟨rfl, _⟩ := decodeCCmd_some h
  · rfl
  · rfl
  · rfl

/-- The only command a write to D_CMD can stand for (R80). -/
theorem eq_dstart_of_decodeDCmd {v : Word} {i : Instr} (h : decodeDCmd v = some i) : i = .dstart := by
  unfold decodeDCmd at h
  split at h
  · split at h
    · exact (Option.some.inj h).symm
    · cases h
  · cases h

/-- A read all of whose values are tokens. -/
def AnswersToken (r : Read Instr) : Prop := ∀ i c, r = .ok i c → Instr.isToken i = true

theorem answersToken_ok {i : Instr} {c : Cursor} (hi : Instr.isToken i = true) : AnswersToken (.ok i c) := by
  intro j d h
  cases h
  exact hi

/-- A sequence of reads answers what its last read answers. -/
theorem AnswersToken.andThen {α : Type} {r : Read α} {k : α → Cursor → Read Instr}
    (hk : ∀ x c, AnswersToken (k x c)) : AnswersToken (r.andThen k) := by
  intro i c h
  obtain ⟨x, d, _, hx⟩ := Read.andThen_eq_ok h
  exact hk x d i c hx

theorem decodeShort_answersToken (st : Stream) (c : Cursor) : AnswersToken (decodeShort st c) :=
  .andThen fun _ _ => .andThen fun _ _ => .andThen fun _ _ => answersToken_ok rfl

theorem decodeLong_answersToken (st : Stream) (c : Cursor) : AnswersToken (decodeLong st c) := by
  refine .andThen fun f d => ?_
  split
  · exact answersToken_ok rfl
  · split
    · exact .andThen fun _ _ => answersToken_ok rfl
    · exact answersToken_ok rfl

/-- The fetch answers tokens only (R84): no host command can come from the stream. -/
theorem decodeToken_answersToken (st : Stream) (c : Cursor) : AnswersToken (decodeToken st c) := by
  refine .andThen fun c0 d => ?_
  cases c0 with
  | true => exact .andThen fun _ _ => answersToken_ok rfl
  | false =>
    refine .andThen fun c1 d1 => ?_
    cases c1 with
    | true => exact decodeLong_answersToken st d1
    | false => exact decodeShort_answersToken st d1

theorem isCiph_of_isToken {i : Instr} (hi : Instr.isToken i = true) : Instr.isCiph i = false := by
  cases i with
  | keyload | encbuf | decbuf => cases hi
  | dstart | lit | scopy | lcopy | lcopyx | endMark => rfl

/-- DSTART and the tokens leave CIPH as it is (R1). -/
theorem exec_ciph_eq {i : Instr} (hi : Instr.isCiph i = false) {s t : State} (h : exec i s = .next t) :
    t.ciph = s.ciph :=
  ((unitsShareNoState s t i h).2 hi).1

/-- The commands of CIPH leave DCMP as it is (R1). -/
theorem exec_dcmp_eq {i : Instr} (hi : Instr.isCiph i = true) {s t : State} (h : exec i s = .next t) :
    t.dcmp = s.dcmp :=
  ((unitsShareNoState s t i h).1 hi).1

end Sys2Proof.Machine
end

section
/-! What changes P, S and KEYED (R25): KEYLOAD and reset alone. -/

namespace Sys2Proof.Machine

/-- P, S and KEYED are as they were. -/
def SameKeying (s t : State) : Prop := t.ciph.tab = s.ciph.tab ∧ t.ciph.keyed = s.ciph.keyed

theorem SameKeying.of_ciph_eq {s t : State} (h : t.ciph = s.ciph) : SameKeying s t := by
  rw [SameKeying, h]
  exact ⟨rfl, rfl⟩

/-- ENCBUF and DECBUF only read the tables. -/
theorem cryptBuf_sameKeying {f : Tables → Block → Block} {s t : State} (h : cryptBuf f s = .next t) :
    SameKeying s t := by
  obtain ⟨_, ⟨_, rfl⟩ | ⟨_, _, rfl⟩ | ⟨_, _, m, _, rfl⟩⟩ := cryptBuf_next h
  · exact ⟨rfl, rfl⟩
  · exact ⟨rfl, rfl⟩
  · exact ⟨rfl, rfl⟩

theorem writeCReg_sameKeying {no : Nat} {v : Word} {s t : State} (hv : ¬(no = 0 ∧ v = 1))
    (h : writeCReg no v s = .next t) : SameKeying s t := by
  obtain ⟨h0, hc⟩ | ⟨_, _, rfl⟩ := writeCReg_next h
  · obtain ⟨_, ⟨i, hi, he⟩ | ⟨_, rfl⟩⟩ := writeCCmd_next hc
    · obtain ⟨_, h1⟩ | ⟨rfl, _⟩ | ⟨rfl, _⟩ := decodeCCmd_some hi
      · exact absurd ⟨h0, h1⟩ hv
      · exact cryptBuf_sameKeying (f := encBlock) he
      · exact cryptBuf_sameKeying (f := decBlock) he
    · exact ⟨rfl, rfl⟩
  · exact ⟨rfl, rfl⟩

theorem writeDReg_ciph {no : Nat} {v : Word} {s t : State} (h : writeDReg no v s = .next t) : t.ciph = s.ciph := by
  obtain ⟨_, hd⟩ | ⟨_, _, rfl⟩ := writeDReg_next h
  · obtain ⟨_, ⟨i, hi, he⟩ | ⟨_, rfl⟩⟩ := writeDCmd_next hd
    · obtain rfl := eq_dstart_of_decodeDCmd hi
      exact exec_ciph_eq rfl he
    · rfl
  · rfl

theorem hostWriteByte_sameKeying {sp : Space} {a : Nat} {v : Byte} {s t : State}
    (h : hostWriteByte sp a v s = .next t) : SameKeying s t := by
  obtain ⟨_, _, _, rfl⟩ | ⟨_, _, _, rfl⟩ | ⟨_, _, _, rfl⟩ := hostWriteByte_next h
  · exact ⟨rfl, rfl⟩
  · exact ⟨rfl, rfl⟩
  · exact ⟨rfl, rfl⟩

theorem hostAct_sameKeying {a : HostAct} {s t : State} (hkey : a ≠ .writeReg .ciph 0 1) (hreset : a ≠ .reset)
    (h : hostAct a s = .next t) : SameKeying s t := by
  cases a with
  | writeReg u no v =>
    cases u with
    | ciph => exact writeCReg_sameKeying (by rintro ⟨rfl, rfl⟩; exact hkey rfl) h
    | dcmp => exact .of_ciph_eq (writeDReg_ciph h)
  | readReg u no =>
    obtain ⟨_, w, _, rfl⟩ := hostReadReg_next h
    exact ⟨rfl, rfl⟩
  | writeByte sp n v => exact hostWriteByte_sameKeying h
  | readByte sp n =>
    obtain ⟨b, rfl, _⟩ := hostReadByte_next h
    exact ⟨rfl, rfl⟩
  | reset => exact absurd rfl hreset

/-- Settles O45, by what a step can be; the token of a run is no command of CIPH, so it leaves all of CIPH alone. -/
theorem onlyKeyloadChangesTables : Obligations.OnlyKeyloadChangesTables := by
  intro s t h hkey hreset
  cases step_next h with
  | host a rest q e =>
    exact hostAct_sameKeying (s := { s with hostq := rest }) (by rintro rfl; exact hkey rest q)
      (by rintro rfl; exact hreset rest q) e
  | idle q _ e => rw [e]; exact ⟨rfl, rfl⟩
  | token q i c _ d e =>
    have hi := decodeToken_answersToken s.stream s.dcmp.cur i c d
    have hciph := exec_ciph_eq (isCiph_of_isToken hi) e
    exact SameKeying.of_ciph_eq (s := s) hciph
  | exhausted q c _ _ e => rw [e]; exact ⟨rfl, rfl⟩

end Sys2Proof.Machine
end

section
/-! The status flags of a unit agree with each other after every write of them (R201, R202, R206). -/

namespace Sys2Proof.Machine

theorem CCause.code_range (c : CCause) : 1 ≤ c.code.toNat ∧ c.code.toNat ≤ 4 := by
  cases c <;> decide

theorem DCause.code_range (c : DCause) : 1 ≤ c.code.toNat ∧ c.code.toNat ≤ 6 := by
  cases c <;> decide

theorem Status.legal_idle (top : Nat) : Status.idle.Legal top :=
  ⟨(nomatch ·), (nomatch ·), fun _ => rfl, (nomatch ·)⟩

theorem Status.legal_start (st : Status) (top : Nat) : st.start.Legal top :=
  ⟨fun _ => ⟨rfl, rfl⟩, fun _ => rfl, fun _ => rfl, (nomatch ·)⟩

/-- A unit that is busy halts with no fault and no cause (R206). -/
theorem Status.Legal.halt {top : Nat} {st : Status} (h : st.Legal top) (hb : st.busy = true) : st.halt.Legal top := by
  have hfault : st.fault = false := (h.busy_alone hb).2
  exact ⟨(nomatch ·), fun _ => hfault, h.cause_zero, h.cause_code⟩

/-- A unit that is not DONE takes a fault (R206). -/
theorem Status.legal_raise {top : Nat} {st : Status} {k : BitVec 4} (hd : st.done = false)
    (hk : 1 ≤ k.toNat ∧ k.toNat ≤ top) : (st.raise k).Legal top := by
  refine ⟨(nomatch ·), fun h => ?_, (nomatch ·), fun _ => hk⟩
  rw [Status.raise_done, hd] at h
  cases h

end Sys2Proof.Machine
end

section
/-! The sound state is kept by unit CIPH. -/

namespace Sys2Proof.Machine

theorem Memory.sound_nil (cap : Nat) : Memory.Sound [] cap := ⟨List.Pairwise.nil, fun _ h => nomatch h⟩

theorem cryptBuf_ciphInv {f : Tables → Block → Block} {s t : State} (h : s.ciph.Inv s.cfg)
    (ht : cryptBuf f s = .next t) : t.ciph.Inv s.cfg := by
  obtain ⟨_, ⟨_, rfl⟩ | ⟨_, _, rfl⟩ | ⟨hlen, _, m, hm, rfl⟩⟩ := cryptBuf_next ht
  · exact ⟨rfl, Status.legal_raise rfl (CCause.code_range _), h.kbuf, h.cbuf⟩
  · exact ⟨rfl, Status.legal_raise rfl (CCause.code_range _), h.kbuf, h.cbuf⟩
  · obtain ⟨_, _, hwf, hbelow⟩ := cryptBlocks_ok hm
    exact ⟨rfl, (Status.legal_start _ _).halt rfl, h.kbuf, hwf h.cbuf.1, hbelow _ (by omega) h.cbuf.2⟩

theorem execKeyload_ciphInv {s t : State} (h : s.ciph.Inv s.cfg) (ht : execKeyload s = .next t) :
    t.ciph.Inv s.cfg := by
  obtain ⟨_, ⟨_, rfl⟩ | ⟨_, _, rfl⟩ | ⟨_, _, k, _, rfl⟩⟩ := execKeyload_next ht
  · exact ⟨rfl, Status.legal_raise rfl (CCause.code_range _), h.kbuf, h.cbuf⟩
  · exact ⟨rfl, Status.legal_raise rfl (CCause.code_range _), h.kbuf, h.cbuf⟩
  · exact ⟨rfl, (Status.legal_start _ _).halt rfl, h.kbuf, h.cbuf⟩

theorem exec_ciphInv {i : Instr} (hi : Instr.isCiph i = true) {s t : State} (h : s.ciph.Inv s.cfg)
    (ht : exec i s = .next t) : t.ciph.Inv s.cfg := by
  cases i with
  | keyload => exact execKeyload_ciphInv h ht
  | encbuf => exact cryptBuf_ciphInv (f := encBlock) h ht
  | decbuf => exact cryptBuf_ciphInv (f := decBlock) h ht
  | dstart | lit | scopy | lcopy | lcopyx | endMark => cases hi

theorem illegalC_ciphInv {s : State} (h : s.ciph.Inv s.cfg) : (illegalC s).ciph.Inv s.cfg :=
  ⟨rfl, Status.legal_raise rfl (CCause.code_range _), h.kbuf, h.cbuf⟩

end Sys2Proof.Machine
end

section
/-! The sound state is kept by unit DCMP: a command between runs, a token or the end of the stream during a run. -/

namespace Sys2Proof.Machine

/-- A fault leaves DCMP sound wherever the cursor, DIN and DONE are: all else it needs is drawn within its bounds
(R29, R51, R207). -/
theorem raiseD_dcmpInv {s : State} (c : DCause) (hipos : s.dcmp.cur.ipos ≤ s.dcmp.ilen) (hbits : s.dcmp.cur.bitcnt ≤ 8)
    (hdin : Memory.Sound s.dcmp.din s.cfg.dinCap) (hdone : s.dcmp.status.done = false) :
    (raiseD c s).dcmp.Inv s.cfg where
  ipos_le := hipos
  bitcnt_le := hbits
  ilen_run h := nomatch h
  opos_le := freeOpos_le _ _
  window h := by simp [hdone] at h
  result h := by simp [hdone] at h
  status := Status.legal_raise hdone (DCause.code_range c)
  din := hdin
  dout := freeDout_sound _ _

theorem illegalD_dcmpInv {s : State} (h : s.dcmp.Inv s.cfg) : (illegalD s).dcmp.Inv s.cfg where
  ipos_le := h.ipos_le
  bitcnt_le := h.bitcnt_le
  ilen_run h' := nomatch h'
  opos_le := h.opos_le
  window h' := by simp at h'
  result h' := nomatch h'
  status := Status.legal_raise rfl (DCause.code_range _)
  din := h.din
  dout := h.dout

/-- DSTART: the run begins with an empty window at position 0 (R160). -/
theorem execDstart_dcmpInv {s t : State} (h : s.dcmp.Inv s.cfg) (ht : execDstart s = .next t) :
    t.dcmp.Inv s.cfg := by
  obtain ⟨_, ⟨_, rfl⟩ | ⟨hlen, rfl⟩⟩ := execDstart_next ht
  · exact raiseD_dcmpInv (s := startD s) _ h.ipos_le h.bitcnt_le h.din rfl
  · exact {
      ipos_le := Nat.zero_le _
      bitcnt_le := Nat.zero_le _
      ilen_run := fun _ => ⟨rfl, hlen⟩
      opos_le := fun _ _ => Nat.zero_le _
      window := fun _ a ha => absurd ha (Nat.not_lt_zero a)
      result := fun h' => nomatch h'
      status := Status.legal_start _ _
      din := h.din
      dout := h.dout }

/-- During a run DONE is 0 (R206). -/
theorem Dcmp.Inv.done_of_busy {cfg : Params} {d : Dcmp} (h : d.Inv cfg) (hb : d.status.busy = true) :
    d.status.done = false :=
  (h.status.busy_alone hb).1

/-- The window of a run stays written when a token moves the write position (R29, R64). -/
theorem WinStep.window {cap : Option Nat} {w w' : Win} (hw : WinStep cap w w')
    (h : ∀ a, a < w.opos → (Memory.read w.dout a).isSome) : ∀ a, a < w'.opos → (Memory.read w'.dout a).isSome := by
  intro a ha
  by_cases hold : a < w.opos
  · rw [hw.below a hold]
    exact h a hold
  · exact hw.fresh a (Nat.not_lt.1 hold) ha

/-- A token that appends keeps DCMP sound (R163 to R166). -/
theorem TokenNext.dcmpInv {s t : State} (ht : TokenNext s t) (h : s.dcmp.Inv s.cfg)
    (hb : s.dcmp.status.busy = true) : t.dcmp.Inv s.cfg := by
  have hdone := h.done_of_busy hb
  cases ht with
  | moved w hw e =>
    subst e
    exact {
      ipos_le := h.ipos_le
      bitcnt_le := h.bitcnt_le
      ilen_run := h.ilen_run
      opos_le := fun c hc => (hw.cap c hc).1 (h.opos_le c hc)
      window := fun _ => hw.window (h.window (.inl hb))
      result := fun h' => absurd h' (by simp [hdone])
      status := h.status
      din := h.din
      dout := ⟨hw.wf h.dout.1, fun c hc => (hw.cap c hc).2 (h.dout.2 c hc)⟩ }
  | raised c e =>
    subst e
    exact raiseD_dcmpInv c h.ipos_le h.bitcnt_le h.din hdone

/-- END shows the positions and keeps the window (R32, R167). -/
theorem execEnd_dcmpInv {s t : State} (ht : execEnd s = .next t) (h : s.dcmp.Inv s.cfg)
    (hb : s.dcmp.status.busy = true) : t.dcmp.Inv s.cfg := by
  cases ht
  exact {
    ipos_le := h.ipos_le
    bitcnt_le := h.bitcnt_le
    ilen_run := fun h' => nomatch h'
    opos_le := h.opos_le
    window := fun _ => h.window (.inl hb)
    result := fun _ => ⟨rfl, rfl⟩
    status := h.status.halt hb
    din := h.din
    dout := h.dout }

theorem exec_token_dcmpInv {i : Instr} (hi : Instr.isToken i = true) {s t : State} (h : s.dcmp.Inv s.cfg)
    (hb : s.dcmp.status.busy = true) (ht : exec i s = .next t) : t.dcmp.Inv s.cfg := by
  cases i with
  | keyload | encbuf | decbuf | dstart => cases hi
  | lit v => exact (execLit_next ht).dcmpInv h hb
  | scopy a b o => exact (execScopy_next ht).dcmpInv h hb
  | lcopy q sz => exact (execLcopy_next ht).dcmpInv h hb
  | lcopyx q n => exact (execLcopyx_next ht).dcmpInv h hb
  | endMark => exact execEnd_dcmpInv ht h hb

/-- A cursor within the stream may take the place of the old one during a run (R26, R28). -/
theorem setCursor_dcmpInv {s : State} {c : Cursor} (h : s.dcmp.Inv s.cfg) (hb : s.dcmp.status.busy = true)
    (hc : c.Within s.dcmp.ilen 0) : (s.setCursor c).dcmp.Inv s.cfg :=
  { h with
    ipos_le := hc.2.1
    bitcnt_le := hc.2.2
    result := fun h' => absurd h' (by simp [h.done_of_busy hb]) }

end Sys2Proof.Machine
end

section
/-! The sound state is kept by every step, and holds after reset. -/

namespace Sys2Proof.Machine

/-- Soundness looks at the parameters and the two units only. -/
theorem State.Inv.of_units {s t : State} (h : s.Inv) (hcfg : t.cfg = s.cfg) (hc : t.ciph.Inv s.cfg)
    (hd : t.dcmp.Inv s.cfg) : t.Inv :=
  ⟨hcfg ▸ h.cfg, hcfg ▸ hc, hcfg ▸ hd⟩

theorem exec_ciph_inv {i : Instr} (hi : Instr.isCiph i = true) {s t : State} (h : s.Inv) (ht : exec i s = .next t) :
    t.Inv :=
  h.of_units (exec_cfg ht) (exec_ciphInv hi h.ciph ht) (exec_dcmp_eq hi ht ▸ h.dcmp)

theorem exec_token_inv {i : Instr} (hi : Instr.isToken i = true) {s t : State} (h : s.Inv)
    (hb : s.dcmp.status.busy = true) (ht : exec i s = .next t) : t.Inv :=
  h.of_units (exec_cfg ht) (exec_ciph_eq (isCiph_of_isToken hi) ht ▸ h.ciph) (exec_token_dcmpInv hi h.dcmp hb ht)

theorem execDstart_inv {s t : State} (h : s.Inv) (ht : exec .dstart s = .next t) : t.Inv :=
  h.of_units (exec_cfg ht) (exec_ciph_eq rfl ht ▸ h.ciph) (execDstart_dcmpInv h.dcmp ht)

theorem writeCReg_inv {no : Nat} {v : Word} {s t : State} (h : s.Inv) (ht : writeCReg no v s = .next t) : t.Inv := by
  obtain ⟨_, hc⟩ | ⟨_, _, rfl⟩ := writeCReg_next ht
  · obtain ⟨_, ⟨i, hi, he⟩ | ⟨_, rfl⟩⟩ := writeCCmd_next hc
    · exact exec_ciph_inv (isCiph_of_decodeCCmd hi) h he
    · exact h.of_units rfl (illegalC_ciphInv h.ciph) h.dcmp
  · exact h.of_units rfl { h.ciph with } h.dcmp

theorem writeDReg_inv {no : Nat} {v : Word} {s t : State} (h : s.Inv) (ht : writeDReg no v s = .next t) : t.Inv := by
  obtain ⟨_, hd⟩ | ⟨_, hidle, rfl⟩ := writeDReg_next ht
  · obtain ⟨_, ⟨i, hi, he⟩ | ⟨_, rfl⟩⟩ := writeDCmd_next hd
    · obtain rfl := eq_dstart_of_decodeDCmd hi
      exact execDstart_inv h he
    · exact h.of_units rfl h.ciph (illegalD_dcmpInv h.dcmp)
  · exact h.of_units rfl h.ciph { h.dcmp with ilen_run := fun hb => absurd hb (by simp [hidle]) }

theorem hostWriteByte_inv {sp : Space} {a : Nat} {v : Byte} {s t : State} (h : s.Inv)
    (ht : hostWriteByte sp a v s = .next t) : t.Inv := by
  obtain ⟨_, _, ha, rfl⟩ | ⟨_, _, ha, rfl⟩ | ⟨_, _, ha, rfl⟩ := hostWriteByte_next ht
  · exact h.of_units rfl { h.ciph with kbuf := Memory.write_sound v h.ciph.kbuf ha } h.dcmp
  · exact h.of_units rfl { h.ciph with cbuf := Memory.write_sound v h.ciph.cbuf ha } h.dcmp
  · exact h.of_units rfl h.ciph { h.dcmp with din := Memory.write_sound v h.dcmp.din ha }

/-- Reset leaves a sound state wherever it strikes (R230, R231). -/
theorem resetUnits_inv {s : State} (h : s.cfg.wf) : (resetUnits s).Inv where
  cfg := h
  ciph := ⟨rfl, Status.legal_idle 4, Memory.sound_nil _, Memory.sound_nil _⟩
  dcmp := {
    ipos_le := Nat.le_refl _
    bitcnt_le := Nat.zero_le _
    ilen_run := fun h' => nomatch h'
    opos_le := fun _ _ => Nat.zero_le _
    window := fun _ a ha => absurd ha (Nat.not_lt_zero a)
    result := fun h' => nomatch h'
    status := Status.legal_idle 6
    din := Memory.sound_nil _
    dout := ⟨List.Pairwise.nil, fun _ _ _ h' => nomatch h'⟩ }

theorem hostAct_inv {a : HostAct} {s t : State} (h : s.Inv) (ht : hostAct a s = .next t) : t.Inv := by
  cases a with
  | writeReg u no v =>
    cases u with
    | ciph => exact writeCReg_inv h ht
    | dcmp => exact writeDReg_inv h ht
  | readReg u no =>
    obtain ⟨_, w, _, rfl⟩ := hostReadReg_next ht
    exact h.of_units rfl h.ciph h.dcmp
  | writeByte sp n v => exact hostWriteByte_inv h ht
  | readByte sp n =>
    obtain ⟨b, rfl, _⟩ := hostReadByte_next ht
    exact h.of_units rfl h.ciph h.dcmp
  | reset => cases ht; exact resetUnits_inv h.cfg

/-- The fetch of a run leaves a sound state, whether it answers a token or stops. -/
theorem fetch_inv {s : State} (h : s.Inv) (hb : s.dcmp.status.busy = true) (q : List Pending) :
    ({ s with hostq := q }.setCursor (decodeToken s.stream s.dcmp.cur).cursor).Inv :=
  h.of_units rfl h.ciph (setCursor_dcmpInv h.dcmp hb
    (decodeToken_within ⟨Nat.zero_le _, h.dcmp.ipos_le, h.dcmp.bitcnt_le⟩))

theorem raiseD_inv {s : State} (c : DCause) (h : s.Inv) (hb : s.dcmp.status.busy = true) : (raiseD c s).Inv :=
  h.of_units rfl h.ciph
    (raiseD_dcmpInv c h.dcmp.ipos_le h.dcmp.bitcnt_le h.dcmp.din (h.dcmp.done_of_busy hb))

/-- Settles O47, by what a step can be: a host action, an idle turn, a token, or the end of a stream that ran out. -/
theorem stepKeepsSoundState : Obligations.StepKeepsSoundState := by
  intro s t h ht
  cases step_next ht with
  | host a rest _ e => exact hostAct_inv (s := { s with hostq := rest }) (h.of_units rfl h.ciph h.dcmp) e
  | idle q _ e => exact e ▸ h.of_units rfl h.ciph h.dcmp
  | token q i c hb d e =>
    have hfetch := fetch_inv h hb q
    rw [d] at hfetch
    exact exec_token_inv (decodeToken_answersToken _ _ i c d) hfetch hb e
  | exhausted q c hb d e =>
    have hfetch := fetch_inv h hb q
    rw [d] at hfetch
    exact e ▸ raiseD_inv _ hfetch hb

/-- The parameters of the machine are within the bounds of R6, whatever the open capacities are. -/
theorem params_wf : Config.params.wf := by
  have hk := Config.kbufCapRaw.isLt
  have hc := Config.cbufCapRaw.isLt
  have hd := Config.dinCapRaw.isLt
  refine ⟨Nat.le_max_left _ _, ?_, ?_, ?_, fun n h => nomatch h⟩ <;> simp only [Config.params, Config.maxCap] <;> omega

/-- Settles O48: the state after reset is a reset of itself, with the machine's parameters. -/
theorem resetStateIsSound : Obligations.ResetStateIsSound := resetUnits_inv (s := State.reset) params_wf

end Sys2Proof.Machine
end

section
/-! What the host gives a command is never written by an instruction (R31, R32, R73, R207). -/

namespace Sys2Proof.Machine

theorem cryptBuf_inputs {f : Tables → Block → Block} {s t : State} (h : cryptBuf f s = .next t) :
    t.ciph.kbuf = s.ciph.kbuf ∧ t.ciph.cLen = s.ciph.cLen := by
  obtain ⟨_, ⟨_, rfl⟩ | ⟨_, _, rfl⟩ | ⟨_, _, m, _, rfl⟩⟩ := cryptBuf_next h
  · exact ⟨rfl, rfl⟩
  · exact ⟨rfl, rfl⟩
  · exact ⟨rfl, rfl⟩

theorem execKeyload_inputs {s t : State} (h : execKeyload s = .next t) :
    t.ciph.kbuf = s.ciph.kbuf ∧ t.ciph.cLen = s.ciph.cLen := by
  obtain ⟨_, ⟨_, rfl⟩ | ⟨_, _, rfl⟩ | ⟨_, _, k, _, rfl⟩⟩ := execKeyload_next h
  · exact ⟨rfl, rfl⟩
  · exact ⟨rfl, rfl⟩
  · exact ⟨rfl, rfl⟩

theorem exec_ciph_inputs {i : Instr} {s t : State} (h : exec i s = .next t) :
    t.ciph.kbuf = s.ciph.kbuf ∧ t.ciph.cLen = s.ciph.cLen := by
  cases i with
  | keyload => exact execKeyload_inputs h
  | encbuf => exact cryptBuf_inputs (f := encBlock) h
  | decbuf => exact cryptBuf_inputs (f := decBlock) h
  | dstart | lit | scopy | lcopy | lcopyx | endMark => rw [exec_ciph_eq rfl h]; exact ⟨rfl, rfl⟩

/-- The stream of a run and how far it has been read are as the fetch left them. -/
def SameInput (d d' : Dcmp) : Prop := d'.din = d.din ∧ d'.dIlen = d.dIlen ∧ d'.ilen = d.ilen ∧ d'.cur = d.cur

theorem TokenNext.sameInput {s t : State} (h : TokenNext s t) : SameInput s.dcmp t.dcmp := by
  cases h with
  | moved w _ e => rw [e]; exact ⟨rfl, rfl, rfl, rfl⟩
  | raised c e => rw [e]; exact ⟨rfl, rfl, rfl, rfl⟩

/-- Every instruction but DSTART leaves the stream and the cursor. -/
theorem exec_sameInput {i : Instr} {s t : State} (hi : i ≠ .dstart) (h : exec i s = .next t) :
    SameInput s.dcmp t.dcmp := by
  cases i with
  | keyload | encbuf | decbuf => rw [exec_dcmp_eq rfl h]; exact ⟨rfl, rfl, rfl, rfl⟩
  | dstart => exact absurd rfl hi
  | lit v => exact (execLit_next h).sameInput
  | scopy a b o => exact (execScopy_next h).sameInput
  | lcopy q sz => exact (execLcopy_next h).sameInput
  | lcopyx q n => exact (execLcopyx_next h).sameInput
  | endMark => cases h; exact ⟨rfl, rfl, rfl, rfl⟩

theorem execDstart_inputs {s t : State} (h : execDstart s = .next t) :
    t.dcmp.din = s.dcmp.din ∧ t.dcmp.dIlen = s.dcmp.dIlen := by
  obtain ⟨_, ⟨_, rfl⟩ | ⟨_, rfl⟩⟩ := execDstart_next h
  · exact ⟨rfl, rfl⟩
  · exact ⟨rfl, rfl⟩

/-- Settles O43, apart for DSTART, which sets ilen and the cursor, and for every other instruction. -/
theorem inputsAreNeverWritten : Obligations.InputsAreNeverWritten := by
  intro s t i h
  obtain ⟨hkbuf, hlen⟩ := exec_ciph_inputs h
  by_cases hi : i = .dstart
  · subst hi
    obtain ⟨hdin, hdlen⟩ := execDstart_inputs h
    exact ⟨hkbuf, hlen, hdin, hdlen, fun hne => absurd rfl hne⟩
  · obtain ⟨hdin, hdlen, hilen, hcur⟩ := exec_sameInput hi h
    exact ⟨hkbuf, hlen, hdin, hdlen, fun _ => ⟨hilen, hcur⟩⟩

end Sys2Proof.Machine
end

section
/-! The host's reads, writes and reset, each as the step that performs it (R31, R32, R50, R230). -/

namespace Sys2Proof.Machine

/-- A step whose host action is due performs it (R213). -/
theorem step_of_due {s : State} {a : HostAct} {rest : List Pending} (h : s.hostq = ⟨0, a⟩ :: rest) :
    step s = hostAct a { s with hostq := rest } := by
  unfold step machineStep
  rw [h]

/-- A register read that is allowed answers the register's word. -/
theorem hostReadReg_eq {u : UnitId} {no : Nat} {s : State} {w : Word} (hallowed : no ≠ 2 ∨ s.busy u = false)
    (hw : readReg u no s = some w) : hostReadReg u no s = .next { s with hostIn := .word w } := by
  rw [hostReadReg, if_neg (by simpa [imp_iff_not_or] using hallowed), hw]

/-- Settles O50, register by register. -/
theorem hostReadsRegisters : Obligations.HostReadsRegisters := by
  intro s rest u no w hq hreg
  rw [step_of_due hq]
  obtain ⟨rfl, rfl, rfl⟩ | ⟨rfl, rfl, rfl⟩ | ⟨rfl, rfl, hb, rfl⟩ | ⟨rfl, rfl, rfl⟩ | ⟨rfl, rfl, rfl⟩ |
    ⟨rfl, rfl, hb, rfl⟩ | ⟨rfl, rfl, rfl⟩ | ⟨rfl, rfl, rfl⟩ := hreg
  · exact hostReadReg_eq (.inl (by decide)) rfl
  · exact hostReadReg_eq (.inl (by decide)) rfl
  · exact hostReadReg_eq (.inr hb) rfl
  · exact hostReadReg_eq (.inl (by decide)) rfl
  · exact hostReadReg_eq (.inl (by decide)) rfl
  · exact hostReadReg_eq (.inr hb) rfl
  · exact hostReadReg_eq (.inl (by decide)) rfl
  · exact hostReadReg_eq (.inl (by decide)) rfl

/-- A byte access to an idle unit below the capacity is performed. -/
theorem byteAccess_of_idle {u : State} {b : Bool} {r : Refusal} {f : Fault} {cap a : Nat} (hb : b = false)
    (ha : a < cap) : (if b then .refused r else if cap ≤ a then .fault f else .next u : Out) = .next u := by
  rw [if_neg (by simp [hb]), if_neg (Nat.not_le.2 ha)]

/-- Settles O53: each write is the model's, at an idle unit and below the capacity. -/
theorem hostWritesLand : Obligations.HostWritesLand := by
  intro s rest a v w
  constructor
  · intro hb
    refine ⟨if_neg (by simp [hb]), fun ha => ?_, fun ha => ?_⟩
    · exact ⟨_, byteAccess_of_idle hb ha, Memory.read_write _ a v⟩
    · exact ⟨_, byteAccess_of_idle hb ha, Memory.read_write _ a v⟩
  · intro hb
    refine ⟨if_neg (by simp [hb]), fun ha => ?_⟩
    exact ⟨_, byteAccess_of_idle hb ha, Memory.read_write _ a v⟩

/-- The status word of a unit that is idle and has ended nothing (R37). -/
theorem statusWord_idle : statusWord .idle false = 0 := by decide

/-- Settles O54: the step is the reset of both units, whose fields are the reset values. -/
theorem resetGivesResetValues : Obligations.ResetGivesResetValues := by
  intro s rest hq
  exact ⟨resetUnits { s with hostq := rest }, step_of_due hq, rfl, rfl, rfl, rfl, statusWord_idle, rfl, rfl, rfl, rfl,
    rfl, statusWord_idle, rfl, rfl, rfl, fun a => ⟨rfl, rfl, rfl, rfl⟩⟩

end Sys2Proof.Machine
end

section
/-! The bits of the status words (R31, R32), from the number each word is. -/

namespace Sys2Proof.Machine

theorem toNat_statusWord (st : Status) (keyed : Bool) :
    (statusWord st keyed).toNat =
      st.busy.toNat + 2 * keyed.toNat + 4 * st.done.toNat + 8 * st.fault.toNat + 16 * st.cause.toNat := by
  have hb := st.busy.toNat_le
  have hk := keyed.toNat_le
  have hd := st.done.toNat_le
  have hf := st.fault.toNat_le
  have hc := st.cause.isLt
  rw [statusWord, BitVec.toNat_ofNat, Nat.mod_eq_of_lt (by omega)]

/-- A bit of a word is the binary digit at its place. -/
theorem getLsbD_eq_of_digit {n i : Nat} {x : BitVec n} {b : Bool} (h : x.toNat / 2 ^ i % 2 = b.toNat) :
    x.getLsbD i = b := by
  rw [BitVec.getLsbD, Nat.testBit_eq_decide_div_mod_eq, h]
  cases b <;> rfl

/-- A field of a word is the run of binary digits from its place on. -/
theorem extractLsb'_eq_of_digits {n i len : Nat} {x : BitVec n} {y : BitVec len}
    (h : x.toNat / 2 ^ i % 2 ^ len = y.toNat) : x.extractLsb' i len = y := by
  apply BitVec.eq_of_toNat_eq
  rw [BitVec.extractLsb'_toNat, Nat.shiftRight_eq_div_pow, h]

theorem statusWord_bits (st : Status) (keyed : Bool) :
    (statusWord st keyed).getLsbD 0 = st.busy ∧ (statusWord st keyed).getLsbD 1 = keyed ∧
    (statusWord st keyed).getLsbD 2 = st.done ∧ (statusWord st keyed).getLsbD 3 = st.fault ∧
    (statusWord st keyed).extractLsb' 4 4 = st.cause ∧ (statusWord st keyed).extractLsb' 8 24 = 0 := by
  have hw := toNat_statusWord st keyed
  have hb := st.busy.toNat_le
  have hk := keyed.toNat_le
  have hd := st.done.toNat_le
  have hf := st.fault.toNat_le
  have hc := st.cause.isLt
  have hzero : (0 : BitVec 24).toNat = 0 := rfl
  refine ⟨getLsbD_eq_of_digit ?_, getLsbD_eq_of_digit ?_, getLsbD_eq_of_digit ?_, getLsbD_eq_of_digit ?_,
    extractLsb'_eq_of_digits ?_, extractLsb'_eq_of_digits ?_⟩
  all_goals omega

/-- Settles O52: both status words are one word of status bits, with KEYED or with 0 at bit 1. -/
theorem statusWordBits : Obligations.StatusWordBits :=
  ⟨fun c => statusWord_bits c.status c.keyed, fun d => statusWord_bits d.status false⟩

end Sys2Proof.Machine
end

section
/-! A DCMP operation that takes its fault, and the fetch that runs out of input (R61 to R63, R202). -/

namespace Sys2Proof.Machine

/-- Taking a fault is the fault the statements speak of (R206, R207). -/
theorem raiseD_dfault (c : DCause) (s : State) : DFault c.code s (raiseD c s) := rfl

/-- A token whose window operations fault takes that fault. -/
theorem finishToken_dfault {s : State} {r : WinOut Win} {c : DCause} (h : r = .raise c) :
    ∃ t, finishToken s r = .next t ∧ DFault c.code s t :=
  ⟨raiseD c s, by rw [h]; rfl, raiseD_dfault c s⟩

/-- With no host action to come a step is the units' turn (R213). -/
theorem step_of_no_action {s : State} (h : s.hostq = []) : step s = unitsTurn s := by
  unfold step machineStep
  rw [h]

/-- The turn of a run whose fetch runs out of input (R161, R202). -/
theorem unitsTurn_of_exhausted {s : State} {c : Cursor} (hb : s.dcmp.status.busy = true)
    (hd : decodeToken s.stream s.dcmp.cur = .stop .exhausted c) :
    unitsTurn s = .next (raiseD .inputExhausted (s.setCursor c)) := by
  rw [unitsTurn, if_pos hb, tokenStep, hd]

/-- At the end of a stream no control bit can be read with none cached (R61). -/
theorem getBit_exhausted {st : Stream} {c : Cursor} (hend : st.len ≤ c.ipos) (hcnt : c.bitcnt = 0) :
    getBit st c = .stop .exhausted c := by
  rw [getBit, if_pos hcnt, getByte, if_pos hend, Read.andThen_stop]

/-- Settles O12: the fetch's stop is the fault taken, and a token's first read is a control bit. -/
theorem streamEndFaults : Obligations.StreamEndFaults := by
  constructor
  · intro s c hq hb hd
    exact ⟨_, (step_of_no_action hq).trans (unitsTurn_of_exhausted hb hd), raiseD_dfault _ _⟩
  · intro s hend hcnt
    rw [decodeToken, getBit_exhausted hend hcnt, Read.andThen_stop]

end Sys2Proof.Machine
end

section
/-! The faults of a copy and of an append (R64, R65, R168, R170), with each copy token's offset as a distance back. -/

namespace Sys2Proof.Machine

/-- SCOPY's offset is a distance of 1 to 256 back (R90). -/
theorem shortOffset_eq_neg (o : Byte) : shortOffset o = -((256 - o.toNat : Nat) : Int) := by
  have := o.isLt
  simp only [shortOffset, Config.shortOffsetSpan]
  omega

/-- A long field that names a distance is that distance back, under either reading (R93). -/
theorem longOffset_eq_neg {s : State} {q : BitVec 13} (h : LongBack s q) :
    longOffset s.cfg.longOffset q = -(longDistance q : Int) := by
  have hq := q.isLt
  have hback : longOffset s.cfg.longOffset q = (q.toNat : Int) - 8192 := by
    obtain hor | hge := h
    · rw [hor]; rfl
    · cases s.cfg.longOffset with
      | sext13 => exact sext13_of_le hge
      | orM8192 => rfl
  rw [hback, longDistance]
  omega

theorem shortSize_pos (a b : Bool) : 0 < shortSize a b := Nat.succ_pos _

theorem longSize_pos (sz : BitVec 3) : 0 < longSize sz := Nat.succ_pos _

theorem extSize_pos (n : Byte) : 0 < extSize n := Nat.succ_pos _

/-- A copy with a negative offset goes straight to its steps (R168). -/
theorem copy_of_neg {cap : Option Nat} {off : Int} {n : Nat} {w : Win} (h : off < 0) :
    copy cap off n w = copySteps cap off n w := if_neg (Int.not_le.2 h)

/-- A copy whose first source lies before the start of the output, whatever the room (R64, R205). -/
theorem copy_underflow {cap : Option Nat} {d n : Nat} {w : Win} (hd : w.opos < d) (hn : 0 < n) :
    copy cap (-(d : Int)) n w = .raise .windowUnderflow := by
  obtain ⟨n, rfl⟩ := Nat.exists_eq_add_one_of_ne_zero hn.ne'
  have hread : winRead w (-(d : Int)) = .raise .windowUnderflow := if_pos (by omega)
  rw [copy_of_neg (by omega), copySteps, hread]
  rfl

/-- A token that copies `n` bytes from `d` back (R168). -/
def copyBack (d n : Nat) (s : State) : Out := finishToken s (copy s.cfg.doutCap (-(d : Int)) n s.win)

theorem exec_scopy_eq (a b : Bool) (o : Byte) (s : State) :
    exec (.scopy a b o) s = copyBack (256 - o.toNat) (shortSize a b) s := by
  rw [copyBack, ← shortOffset_eq_neg]
  rfl

theorem exec_lcopy_eq {s : State} {q : BitVec 13} (h : LongBack s q) (sz : BitVec 3) :
    exec (.lcopy q sz) s = copyBack (longDistance q) (longSize sz) s := by
  rw [copyBack, ← longOffset_eq_neg h]
  rfl

theorem exec_lcopyx_eq {s : State} {q : BitVec 13} (h : LongBack s q) (n : Byte) :
    exec (.lcopyx q n) s = copyBack (longDistance q) (extSize n) s := by
  rw [copyBack, ← longOffset_eq_neg h]
  rfl

theorem copyBack_underflow {d n : Nat} {s : State} (hd : s.dcmp.opos < d) (hn : 0 < n) :
    ∃ t, copyBack d n s = .next t ∧ DFault 5 s t :=
  finishToken_dfault (c := .windowUnderflow) (copy_underflow hd hn)

/-- Settles O22: the first step of each copy reads before the start of the output. -/
theorem windowUnderflowFaults : Obligations.WindowUnderflowFaults := by
  intro s
  refine ⟨fun a b o h => ?_, fun q hq h => ⟨fun sz => ?_, fun n => ?_⟩⟩
  · exact exec_scopy_eq a b o s ▸ copyBack_underflow h (shortSize_pos a b)
  · exact exec_lcopy_eq hq sz ▸ copyBack_underflow h (longSize_pos sz)
  · exact exec_lcopyx_eq hq n ▸ copyBack_underflow h (extSize_pos n)

theorem append_of_room {cap : Nat} {w : Win} {v : Byte} (h : w.opos < cap) :
    append (some cap) w v = .ok { opos := w.opos + 1, dout := Memory.write w.dout w.opos v } :=
  if_pos (decide_eq_true h)

/-- There is no room at or past the capacity (R65). -/
theorem append_overflow {cap : Nat} {w : Win} {v : Byte} (h : cap ≤ w.opos) :
    append (some cap) w v = .raise .outputOverflow :=
  if_neg (by simpa [hasRoom] using h)

/-- The `d` bytes behind the write position exist and are written. -/
def Win.Written (w : Win) (d : Nat) : Prop :=
  d ≤ w.opos ∧ ∀ a, w.opos - d ≤ a → a < w.opos → (Memory.read w.dout a).isSome

theorem Win.Written.winRead {w : Win} {d : Nat} (h : w.Written d) (hd : 0 < d) :
    ∃ v, winRead w (-(d : Int)) = .ok v := by
  obtain ⟨hle, hwin⟩ := h
  obtain ⟨hneg, _⟩ | ⟨_, v, _, e⟩ | ⟨_, hnone, _⟩ := winRead_cases w (-(d : Int))
  · omega
  · exact ⟨v, e⟩
  · have hsome := hwin _ (by omega : w.opos - d ≤ ((w.opos : Int) + -(d : Int)).toNat) (by omega)
    rw [hnone] at hsome
    cases hsome

theorem Win.Written.write {w : Win} {d : Nat} (h : w.Written d) (v : Byte) :
    Win.Written { opos := w.opos + 1, dout := Memory.write w.dout w.opos v } d := by
  obtain ⟨hle, hwin⟩ := h
  refine ⟨Nat.le_succ_of_le hle, fun a h1 h2 => ?_⟩
  simp only at h1 h2
  rw [Memory.read_write]
  split
  · rfl
  · exact hwin a (by omega) (by omega)

/-- Copy steps from inside a written window whose end lies past the capacity fill the output and overflow (R65, R170). -/
theorem copySteps_overflow {cap d n : Nat} {w : Win} (hd : 0 < d) (hw : w.Written d) (hn : 0 < n)
    (hcap : cap < w.opos + n) : copySteps (some cap) (-(d : Int)) n w = .raise .outputOverflow := by
  induction n generalizing w with
  | zero => cases hn
  | succ n ih =>
    obtain ⟨v, hread⟩ := hw.winRead hd
    simp only [copySteps, hread, WinOut.andThen]
    by_cases hroom : w.opos < cap
    · rw [append_of_room hroom]
      exact ih (hw.write v) (by omega) (by show cap < w.opos + 1 + n; omega)
    · rw [append_overflow (Nat.not_lt.1 hroom)]

theorem copyBack_overflow {cap d n : Nat} {s : State} (hc : s.cfg.doutCap = some cap) (hd : 0 < d)
    (hw : s.win.Written d) (hn : 0 < n) (hcap : cap < s.dcmp.opos + n) :
    ∃ t, copyBack d n s = .next t ∧ DFault 6 s t :=
  finishToken_dfault (c := .outputOverflow) ((copy_of_neg (by omega)).trans (hc ▸ copySteps_overflow hd hw hn hcap))

/-- Settles O23: the append of LIT, and the append of the copy step that reaches the capacity. -/
theorem outputOverflowFaults : Obligations.OutputOverflowFaults := by
  intro s cap hcap
  refine ⟨fun v h => ?_, fun d hd hle hwin => ?_⟩
  · exact finishToken_dfault (c := .outputOverflow) (hcap ▸ append_overflow (w := s.win) h)
  · have hw : s.win.Written d := ⟨hle, hwin⟩
    refine ⟨fun a b o ho h => ?_, fun q hq hdist => ⟨fun sz h => ?_, fun n h => ?_⟩⟩
    · rw [exec_scopy_eq, ho]
      exact copyBack_overflow hcap hd hw (shortSize_pos a b) h
    · rw [exec_lcopy_eq hq, hdist]
      exact copyBack_overflow hcap hd hw (longSize_pos sz) h
    · rw [exec_lcopyx_eq hq, hdist]
      exact copyBack_overflow hcap hd hw (extSize_pos n) h

end Sys2Proof.Machine
end

section
/-! The control bits of a stream in the order they are delivered (R55, R61). -/

namespace Sys2Proof.Machine

/-- The cursor once `k` control bits, and nothing else, have been taken from the control bytes `g` at address `p` on. -/
structure BitsTaken (g : Nat → Byte) (p k : Nat) (c : Cursor) : Prop where
  ipos : c.ipos = p + (k + 7) / 8
  bitcnt : c.bitcnt = 8 * ((k + 7) / 8) - k
  bitbuf : c.bitcnt ≠ 0 → c.bitbuf = g (k / 8) >>> (k % 8)

theorem getBit_cached {st : Stream} {c : Cursor} (hcnt : c.bitcnt ≠ 0) :
    getBit st c = .ok (c.bitbuf.getLsbD 0) { c with bitbuf := c.bitbuf >>> 1, bitcnt := c.bitcnt - 1 } := if_neg hcnt

/-- With no bit cached the next byte is taken as a control byte (R61). -/
theorem getBit_fresh {st : Stream} {c : Cursor} {v : Byte} (hcnt : c.bitcnt = 0) (hlen : c.ipos < st.len)
    (hv : st.byteAt c.ipos = some v) :
    getBit st c = .ok (v.getLsbD 0) { ipos := c.ipos + 1, bitbuf := v >>> 1, bitcnt := 7 } := by
  rw [getBit, if_pos hcnt, getByte, if_neg (Nat.not_le.2 hlen), hv]
  rfl

/-- The next control bit is bit `k mod 8` of control byte `k / 8`, which is read only when no bit is cached. -/
theorem BitsTaken.getBit {st : Stream} {g : Nat → Byte} {p k : Nat} {c : Cursor} (h : BitsTaken g p k c)
    (hbyte : k % 8 = 0 → p + k / 8 < st.len ∧ st.byteAt (p + k / 8) = some (g (k / 8))) :
    ∃ c', getBit st c = .ok ((g (k / 8)).getLsbD (k % 8)) c' ∧ BitsTaken g p (k + 1) c' := by
  obtain ⟨hpos, hcnt, hbuf⟩ := h
  by_cases hk : k % 8 = 0
  · obtain ⟨hlen, hv⟩ := hbyte hk
    have hfirst : p + k / 8 = c.ipos := by omega
    rw [hfirst] at hlen hv
    refine ⟨_, hk ▸ getBit_fresh (by omega) hlen hv, ⟨by simp only; omega, by simp only; omega, fun _ => ?_⟩⟩
    rw [show (k + 1) / 8 = k / 8 by omega, show (k + 1) % 8 = 1 by omega]
  · have hcached : c.bitcnt ≠ 0 := by omega
    have hbit : c.bitbuf.getLsbD 0 = (g (k / 8)).getLsbD (k % 8) := by
      rw [hbuf hcached, BitVec.getLsbD_ushiftRight, Nat.add_zero]
    refine ⟨_, hbit ▸ getBit_cached hcached, ⟨by simp only; omega, by simp only; omega, fun hleft => ?_⟩⟩
    simp only at hleft ⊢
    rw [hbuf hcached, ← BitVec.shiftRight_add, show (k + 1) / 8 = k / 8 by omega,
      show (k + 1) % 8 = k % 8 + 1 by omega]

theorem bitsFrom_of_bitsTaken {st : Stream} {g : Nat → Byte} {p k n : Nat} {c : Cursor} (h : BitsTaken g p k c)
    (hbyte : ∀ j, 8 * j < k + n → p + j < st.len ∧ st.byteAt (p + j) = some (g j)) :
    bitsFrom st n c = some ((List.range n).map fun i => (g ((k + i) / 8)).getLsbD ((k + i) % 8)) := by
  induction n generalizing k c with
  | zero => rfl
  | succ n ih =>
    obtain ⟨c', hbit, hc'⟩ := h.getBit fun hk => hbyte (k / 8) (by omega)
    have hrest := ih hc' fun j hj => hbyte j (by omega)
    simp only [bitsFrom, hbit, hrest, Option.map_some, List.range_succ_eq_map, List.map_cons, List.map_map]
    simp [Function.comp_def, Nat.add_right_comm k 1, Nat.add_assoc]

/-- Settles O7, from the start of a control byte with no bit cached. -/
theorem controlBitsFromBitZero : Obligations.ControlBitsFromBitZero := by
  intro st c n g hcnt hbyte
  have h := bitsFrom_of_bitsTaken (g := g) (k := 0) (c := c) (n := n) ⟨rfl, hcnt, fun h => absurd hcnt h⟩
    fun j hj => hbyte j (by omega)
  simpa using h

end Sys2Proof.Machine
end

section
/-! The block transforms as the values of L and R after each iteration (R53, R131, R132). -/

namespace Sys2Proof.Machine

theorem byteOf_le32 (b0 b1 b2 b3 : Byte) :
    byteOf 0 (le32 b0 b1 b2 b3) = b0 ∧ byteOf 1 (le32 b0 b1 b2 b3) = b1 ∧ byteOf 2 (le32 b0 b1 b2 b3) = b2 ∧
      byteOf 3 (le32 b0 b1 b2 b3) = b3 := by
  have skip {n : Nat} (k : Nat) (x : BitVec n) (b : Byte) :
      BitVec.extractLsb' (k + 8) 8 (x ++ b) = BitVec.extractLsb' k 8 x := by
    rw [BitVec.extractLsb'_append_eq_of_le (by omega), Nat.add_sub_cancel]
  exact ⟨BitVec.extractLsb'_append_eq_right, (skip 0 _ _).trans BitVec.extractLsb'_append_eq_right,
    (skip 8 _ _).trans ((skip 0 _ _).trans BitVec.extractLsb'_append_eq_right),
    (skip 16 _ _).trans ((skip 8 _ _).trans BitVec.extractLsb'_append_eq_left)⟩

theorem block_eta (e : Block) : #v[e[0], e[1], e[2], e[3], e[4], e[5], e[6], e[7]] = e := by
  apply Vector.ext
  intro i hi
  interval_cases i <;> rfl

/-- A block is the stored form of the halves it is made of, R first (R53). -/
theorem storeBlock_le32 (e : Block) :
    storeBlock { l := le32 e[4] e[5] e[6] e[7], r := le32 e[0] e[1] e[2] e[3] } = e := by
  obtain ⟨h0, h1, h2, h3⟩ := byteOf_le32 e[0] e[1] e[2] e[3]
  obtain ⟨h4, h5, h6, h7⟩ := byteOf_le32 e[4] e[5] e[6] e[7]
  simp only [storeBlock, h0, h1, h2, h3, h4, h5, h6, h7]
  exact block_eta e

/-- `l` and `r` are the values of L and R around `n` iterations, of which number `j` uses the P words `i j` and `k j`; `m j`
is L between its two assignments in it (R131, R132). -/
def FollowsStages (t : Tables) (i k : Nat → Fin 18) (l r m : Nat → Word) (n : Nat) : Prop :=
  ∀ j, j < n → m j = l j ^^^ t.p.get (i j) ∧ r (j + 1) = r j ^^^ roundF t (m j) ^^^ t.p.get (k j) ∧
    l (j + 1) = m j ^^^ roundF t (r (j + 1))

theorem FollowsStages.foldl {t : Tables} {i k : Nat → Fin 18} {l r m : Nat → Word} {n : Nat}
    (h : FollowsStages t i k l r m n) :
    ((List.range n).map fun j => (i j, k j)).foldl (stage t) ⟨l 0, r 0⟩ = ⟨l n, r n⟩ := by
  induction n with
  | zero => rfl
  | succ n ih =>
    obtain ⟨hm, hr, hl⟩ := h n (Nat.lt_succ_self n)
    rw [List.range_succ, List.map_append, List.foldl_append, ih fun j hj => h j (Nat.lt_succ_of_lt hj)]
    simp [stage, hm, hr, hl]

/-- A block transform: eight iterations from the halves of `b`, the final XORs, and the halves stored as `e`. -/
theorem FollowsStages.storeBlock {t : Tables} {i k : Nat → Fin 18} {l r m : Nat → Word} {b e : Block} {x y : Fin 18}
    (h : FollowsStages t i k l r m 8) (hl : l 0 = le32 b[0] b[1] b[2] b[3]) (hr : r 0 = le32 b[4] b[5] b[6] b[7])
    (her : le32 e[0] e[1] e[2] e[3] = r 8 ^^^ t.p.get y) (hel : le32 e[4] e[5] e[6] e[7] = l 8 ^^^ t.p.get x) :
    storeBlock (whiten t x y (((List.range 8).map fun j => (i j, k j)).foldl (stage t) (loadBlock b))) = e := by
  have hload : loadBlock b = ⟨l 0, r 0⟩ := by rw [hl, hr]; rfl
  have hhalves : whiten t x y ⟨l 8, r 8⟩ = ⟨le32 e[4] e[5] e[6] e[7], le32 e[0] e[1] e[2] e[3]⟩ := by rw [hel, her]; rfl
  rw [hload, h.foldl, hhalves]
  exact storeBlock_le32 e

/-- The P indices of the eight iterations of EncBlock and of DecBlock, by the iteration's number. -/
theorem encPairs_eq : encPairs = (List.range 8).map fun j => (Fin.ofNat 18 (2 * j), Fin.ofNat 18 (2 * j + 1)) := rfl

theorem decPairs_eq : decPairs = (List.range 8).map fun j => (Fin.ofNat 18 (17 - 2 * j), Fin.ofNat 18 (16 - 2 * j)) :=
  rfl

theorem p_eq_get {t : Tables} {p : Nat → Word} (hp : ∀ i : Fin 18, p i.val = t.p.get i) {n : Nat} (hn : n < 18) :
    p n = t.p.get (Fin.ofNat 18 n) := by
  rw [← hp, Fin.val_ofNat, Nat.mod_eq_of_lt hn]

/-- Settles O28, with P[2j] and P[2j+1] in iteration j. -/
theorem encBlockRounds : Obligations.EncBlockRounds := by
  intro t b l r m p hp hl hr hround e her hel
  rw [p_eq_get hp (by decide)] at her hel
  rw [encBlock, encHalves, encPairs_eq]
  refine FollowsStages.storeBlock (m := m) (fun j hj => ?_) hl hr her hel
  rw [← p_eq_get hp (by omega), ← p_eq_get hp (by omega)]
  exact hround j hj

/-- Settles O29, with P[17-2j] and P[16-2j] in iteration j. -/
theorem decBlockRounds : Obligations.DecBlockRounds := by
  intro t b l r m p hp hl hr hround e her hel
  rw [p_eq_get hp (by decide)] at her hel
  rw [decBlock, decHalves, decPairs_eq]
  refine FollowsStages.storeBlock (m := m) (fun j hj => ?_) hl hr her hel
  rw [← p_eq_get hp (by omega), ← p_eq_get hp (by omega)]
  exact hround j hj

end Sys2Proof.Machine
end

section
/-! The host's accesses to a busy unit, and its reads of bytes of an idle one (R50, R70, R239). -/

namespace Sys2Proof.Machine

/-- Settles O49, access by access: each tests BUSY before anything else. -/
theorem busyUnitRefusesHost : Obligations.BusyUnitRefusesHost := by
  intro s rest a v w
  refine ⟨fun hb act hact => ?_, fun hb act hact => ?_⟩
  · rw [step_of_due rfl]
    obtain rfl | rfl | rfl | rfl | rfl := hact
    all_goals exact if_pos hb
  · rw [step_of_due rfl]
    obtain rfl | rfl | rfl | rfl := hact
    all_goals exact if_pos hb

/-- A read of a byte answers with the byte that stands there (R50). -/
theorem answerByte_next (m : Memory) (a : Nat) (free : Byte) (s : State) :
    ∃ b, answerByte m a free s = .next { s with hostIn := .byte b } ∧ ∀ v, Memory.read m a = some v → b = v :=
  ⟨_, rfl, fun v hv => by rw [hv]; rfl⟩

theorem hostReadByte_cbuf {s : State} {a : Nat} (hb : s.ciph.status.busy = false) (ha : a < s.cfg.cbufCap) :
    ∃ b, hostReadByte .cbuf a s = .next { s with hostIn := .byte b } ∧
      ∀ v, Memory.read s.ciph.cbuf a = some v → b = v := by
  rw [hostReadByte, if_neg (by simp [hb]), if_neg (Nat.not_le.2 ha)]
  exact answerByte_next _ _ _ _

theorem hostReadByte_dout {s : State} {a : Nat} (hb : s.dcmp.status.busy = false)
    (ha : ∀ c, s.cfg.doutCap = some c → a < c) :
    ∃ b, hostReadByte .dout a s = .next { s with hostIn := .byte b } ∧
      ∀ v, Memory.read s.dcmp.dout a = some v → b = v := by
  rw [hostReadByte, if_neg (by simp [hb]), if_neg (by simp [(hasRoom_iff _ _).2 ha])]
  exact answerByte_next _ _ _ _

/-- Settles O51, by the read of each buffer of an idle unit. -/
theorem hostReadsBytes : Obligations.HostReadsBytes := by
  intro s rest a
  refine ⟨fun hq hb ha => ?_, fun hq hb ha => ?_⟩
  · rw [step_of_due hq]
    exact hostReadByte_cbuf (s := { s with hostq := rest }) hb ha
  · rw [step_of_due hq]
    exact hostReadByte_dout (s := { s with hostq := rest }) hb ha

end Sys2Proof.Machine
end

section
/-! The token fetch taken apart: which reads answer each token (R84 to R88), and which tokens those reads can give. -/

namespace Sys2Proof.Machine

/-- A token and the reads that gave it, in their order (R84 to R88). -/
inductive TokenRead (st : Stream) (c : Cursor) : Instr → Cursor → Prop where
  | lit {d c' : Cursor} {v : Byte} (h0 : getBit st c = .ok true d) (hv : getByte st d = .ok v c') :
      TokenRead st c (.lit v) c'
  | scopy {d d1 d2 d3 c' : Cursor} {a b : Bool} {o : Byte} (h0 : getBit st c = .ok false d)
      (h1 : getBit st d = .ok false d1) (ha : getBit st d1 = .ok a d2) (hb : getBit st d2 = .ok b d3)
      (ho : getByte st d3 = .ok o c') : TokenRead st c (.scopy a b o) c'
  | endMark {d d1 c' : Cursor} (h0 : getBit st c = .ok false d) (h1 : getBit st d = .ok true d1)
      (hf : getU16 st d1 = .ok 0 c') : TokenRead st c .endMark c'
  | lcopyx {d d1 d2 c' : Cursor} {f : BitVec 16} {n : Byte} (h0 : getBit st c = .ok false d)
      (h1 : getBit st d = .ok true d1) (hf : getU16 st d1 = .ok f d2) (hne : f ≠ 0) (hsz : f.extractLsb' 0 3 = 0)
      (hn : getByte st d2 = .ok n c') : TokenRead st c (.lcopyx (f.extractLsb' 3 13) n) c'
  | lcopy {d d1 c' : Cursor} {f : BitVec 16} (h0 : getBit st c = .ok false d) (h1 : getBit st d = .ok true d1)
      (hf : getU16 st d1 = .ok f c') (hsz : f.extractLsb' 0 3 ≠ 0) :
      TokenRead st c (.lcopy (f.extractLsb' 3 13) (f.extractLsb' 0 3)) c'

theorem decodeLong_tokenRead {st : Stream} {c d d1 c' : Cursor} {i : Instr} (h0 : getBit st c = .ok false d)
    (h1 : getBit st d = .ok true d1) (h : decodeLong st d1 = .ok i c') : TokenRead st c i c' := by
  obtain ⟨f, e, hf, h⟩ := Read.andThen_eq_ok h
  split at h
  · rename_i hzero
    cases h
    exact .endMark h0 h1 (hzero ▸ hf)
  · rename_i hne
    split at h
    · rename_i hsz
      obtain ⟨n, e1, hn, h⟩ := Read.andThen_eq_ok h
      cases h
      exact .lcopyx h0 h1 hf hne hsz hn
    · rename_i hsz
      cases h
      exact .lcopy h0 h1 hf hsz

theorem decodeShort_tokenRead {st : Stream} {c d d1 c' : Cursor} {i : Instr} (h0 : getBit st c = .ok false d)
    (h1 : getBit st d = .ok false d1) (h : decodeShort st d1 = .ok i c') : TokenRead st c i c' := by
  obtain ⟨a, d2, ha, h⟩ := Read.andThen_eq_ok h
  obtain ⟨b, d3, hb, h⟩ := Read.andThen_eq_ok h
  obtain ⟨o, d4, ho, h⟩ := Read.andThen_eq_ok h
  cases h
  exact .scopy h0 h1 ha hb ho

/-- Everything a fetch that answers has read. -/
theorem decodeToken_tokenRead {st : Stream} {c c' : Cursor} {i : Instr} (h : decodeToken st c = .ok i c') :
    TokenRead st c i c' := by
  obtain ⟨c0, d, h0, h⟩ := Read.andThen_eq_ok h
  cases c0 with
  | true =>
    obtain ⟨v, d1, hv, h⟩ := Read.andThen_eq_ok h
    cases h
    exact .lit h0 hv
  | false =>
    obtain ⟨c1, d1, h1, h⟩ := Read.andThen_eq_ok h
    cases c1 with
    | true => exact decodeLong_tokenRead h0 h1 h
    | false => exact decodeShort_tokenRead h0 h1 h

/-! ## The field of a long token -/

/-- R88: the field is eight times the offset field plus the size code. -/
theorem toNat_longField (f : BitVec 16) :
    f.toNat = 8 * (f.extractLsb' 3 13).toNat + (f.extractLsb' 0 3).toNat := by
  have := f.isLt
  simp only [BitVec.extractLsb'_toNat, Nat.shiftRight_eq_div_pow]
  omega

theorem sizeCode_eq_zero_iff (f : BitVec 16) : f.extractLsb' 0 3 = 0 ↔ f.toNat % 8 = 0 := by
  have hf := toNat_longField f
  have hsz := (f.extractLsb' 0 3).isLt
  rw [← BitVec.toNat_inj]
  simp only [BitVec.ofNat_eq_ofNat, BitVec.toNat_ofNat]
  omega

theorem ne_zero_of_sizeCode_ne_zero {f : BitVec 16} (h : f.extractLsb' 0 3 ≠ 0) : f ≠ 0 := by
  rintro rfl
  exact h (by decide)

theorem offsetField_ne_zero {f : BitVec 16} (hne : f ≠ 0) (hsz : f.extractLsb' 0 3 = 0) : f.extractLsb' 3 13 ≠ 0 := by
  intro hq
  refine hne (BitVec.eq_of_toNat_eq ?_)
  rw [toNat_longField f, hq, hsz]
  rfl

/-- Every token the fetch answers is well formed (R88). -/
theorem TokenRead.wf {st : Stream} {c c' : Cursor} {i : Instr} (h : TokenRead st c i c') : i.wf = true := by
  cases h with
  | lit | scopy | endMark => rfl
  | lcopyx _ _ _ hne hsz _ => exact bne_iff_ne.2 (offsetField_ne_zero hne hsz)
  | lcopy _ _ _ hsz => exact bne_iff_ne.2 hsz

/-- Settles O5, token by token, from the reads that gave it. -/
theorem prefixSelectsToken : Obligations.PrefixSelectsToken := by
  intro st c c' i h
  cases decodeToken_tokenRead h with
  | @lit d _ v h0 _ => exact ⟨true, d, h0, by simp, by simp⟩
  | @scopy d d1 _ _ _ a b o h0 h1 _ _ _ => exact ⟨false, d, h0, by simp, fun _ => ⟨false, d1, h1, by simp, by simp⟩⟩
  | @endMark d d1 _ h0 h1 hf =>
    exact ⟨false, d, h0, by simp, fun _ => ⟨true, d1, h1, by simp, fun _ => ⟨0, c', hf, by simp⟩⟩⟩
  | @lcopyx d d1 d2 _ f n h0 h1 hf hne hsz _ =>
    have hmod := (sizeCode_eq_zero_iff f).1 hsz
    have hfield : f.toNat = 8 * (f.extractLsb' 3 13).toNat := by
      rw [toNat_longField f, hsz]
      rfl
    refine ⟨false, d, h0, by simp, fun _ => ⟨true, d1, h1, by simp, fun _ => ⟨f, d2, hf, ⟨nofun, fun e => absurd e hne⟩,
      by simp [hmod], ⟨fun _ => ⟨hne, hmod⟩, fun _ => ⟨_, _, rfl⟩⟩, nofun, fun q n e => ?_⟩⟩⟩
    cases e
    exact hfield
  | @lcopy d d1 _ f h0 h1 hf hsz =>
    have hmod := mt (sizeCode_eq_zero_iff f).2 hsz
    have hne := ne_zero_of_sizeCode_ne_zero hsz
    refine ⟨false, d, h0, by simp, fun _ => ⟨true, d1, h1, by simp, fun _ => ⟨f, c', hf, ⟨nofun, fun e => absurd e hne⟩,
      ⟨fun _ => ⟨hne, hmod⟩, fun _ => ⟨_, _, rfl⟩⟩, by simp [hmod], fun q sz e => ?_, nofun⟩⟩⟩
    cases e
    exact toNat_longField f

end Sys2Proof.Machine
end

section
/-! What a token takes from the stream: control bits, control bytes and data bytes (R98). -/

namespace Sys2Proof.Machine

/-- Between two cursors `bits` control bits and `bytes` data bytes were read, and `k` control bytes taken for them. -/
def Takes (bits bytes : Nat) (c c' : Cursor) : Prop :=
  (c.bitcnt ≤ 8 → c'.bitcnt ≤ 8) ∧ ∃ k, c'.ipos = c.ipos + bytes + k ∧ c'.bitcnt + bits = c.bitcnt + 8 * k

theorem Takes.trans {b1 b2 n1 n2 : Nat} {c d e : Cursor} (h1 : Takes b1 n1 c d) (h2 : Takes b2 n2 d e) :
    Takes (b1 + b2) (n1 + n2) c e := by
  obtain ⟨hle1, k1, hpos1, hcnt1⟩ := h1
  obtain ⟨hle2, k2, hpos2, hcnt2⟩ := h2
  exact ⟨fun h => hle2 (hle1 h), k1 + k2, by omega, by omega⟩

theorem takes_of_getBit {st : Stream} {c c' : Cursor} {b : Bool} (h : getBit st c = .ok b c') : Takes 1 0 c c' := by
  obtain ⟨hcnt, e⟩ | ⟨_, _, e⟩ | ⟨_, _, _, e⟩ | ⟨hcnt, _, v, _, e⟩ := getBit_cases st c <;> rw [e] at h <;> cases h
  · exact ⟨fun h => by simp only; omega, 0, rfl, by simp only; omega⟩
  · exact ⟨fun _ => by simp, 1, rfl, by simp only; omega⟩

theorem takes_of_getByte {st : Stream} {c c' : Cursor} {v : Byte} (h : getByte st c = .ok v c') : Takes 0 1 c c' := by
  obtain ⟨_, e⟩ | ⟨_, _, e⟩ | ⟨_, v, _, e⟩ := getByte_cases st c <;> rw [e] at h <;> cases h
  exact ⟨id, 0, rfl, rfl⟩

theorem takes_of_getU16 {st : Stream} {c c' : Cursor} {f : BitVec 16} (h : getU16 st c = .ok f c') : Takes 0 2 c c' := by
  obtain ⟨_, e⟩ | ⟨_, a, _, _, e⟩ | ⟨_, b0, b1, _, _, e⟩ := getU16_cases st c <;> rw [e] at h <;> cases h
  exact ⟨id, 0, rfl, rfl⟩

theorem TokenRead.takes {st : Stream} {c c' : Cursor} {i : Instr} (h : TokenRead st c i c') :
    Takes i.ctrlBits i.dataBytes c c' := by
  cases h with
  | lit h0 hv => exact (takes_of_getBit h0).trans (takes_of_getByte hv)
  | scopy h0 h1 ha hb ho =>
    have hbits := (takes_of_getBit h0).trans (takes_of_getBit h1)
    exact ((hbits.trans (takes_of_getBit ha)).trans (takes_of_getBit hb)).trans (takes_of_getByte ho)
  | endMark h0 h1 hf | lcopy h0 h1 hf _ =>
    exact ((takes_of_getBit h0).trans (takes_of_getBit h1)).trans (takes_of_getU16 hf)
  | lcopyx h0 h1 hf _ _ hn =>
    have hbits := (takes_of_getBit h0).trans (takes_of_getBit h1)
    exact (hbits.trans (takes_of_getU16 hf)).trans (takes_of_getByte hn)

theorem ctrlBits_le (i : Instr) : i.ctrlBits ≤ 4 := by
  cases i <;> simp [Instr.ctrlBits]

/-- Settles O3: two control bytes would leave more than eight bits cached, since no token reads more than four. -/
theorem tokenOccupiesItsLength : Obligations.TokenOccupiesItsLength := by
  intro st c c' i hc h
  obtain ⟨hle, k, hpos, hcnt⟩ := (decodeToken_tokenRead h).takes
  have hc' := hle hc
  have hbits := ctrlBits_le i
  exact ⟨k, by omega, hpos, hcnt⟩

end Sys2Proof.Machine
end

section
/-! With enough bytes left every read answers (R95). -/

namespace Sys2Proof.Machine

/-- A read that answers, leaving a cursor with `P`. -/
def AnswersTo {α : Type} (r : Read α) (P : Cursor → Prop) : Prop := ∃ x c, r = .ok x c ∧ P c

theorem AnswersTo.andThen {α β : Type} {r : Read α} {k : α → Cursor → Read β} {P Q : Cursor → Prop}
    (hr : AnswersTo r P) (hk : ∀ x c, P c → AnswersTo (k x c) Q) : AnswersTo (r.andThen k) Q := by
  obtain ⟨x, c, rfl, hc⟩ := hr
  exact hk x c hc

/-- The stream has the bytes for `bits` more control bits, at most one of them a control byte, and for `bytes` data
bytes. -/
def Enough (st : Stream) (bits bytes : Nat) (c : Cursor) : Prop :=
  bits ≤ c.bitcnt ∧ c.ipos + bytes ≤ st.len ∨ bits ≤ 8 ∧ c.ipos + bytes + 1 ≤ st.len

theorem Enough.fewer {st : Stream} {bits bytes bits' bytes' : Nat} {c : Cursor} (h : Enough st bits bytes c)
    (hbits : bits' ≤ bits) (hbytes : bytes' ≤ bytes) : Enough st bits' bytes' c := by
  unfold Enough at h ⊢
  omega

section
variable {st : Stream} (hst : ∀ a, a < st.len → (st.byteAt a).isSome)
include hst

theorem getBit_answersTo {bits bytes : Nat} {c : Cursor} (h : Enough st (bits + 1) bytes c) :
    AnswersTo (getBit st c) (Enough st bits bytes) := by
  unfold Enough at h
  obtain ⟨hcnt, e⟩ | ⟨hcnt, hend, _⟩ | ⟨_, hlt, hnone, _⟩ | ⟨hcnt, hlt, v, _, e⟩ := getBit_cases st c
  · refine ⟨_, _, e, ?_⟩
    simp only [Enough]
    omega
  · omega
  · simpa [hnone] using hst _ hlt
  · refine ⟨_, _, e, ?_⟩
    simp only [Enough]
    omega

theorem getByte_answersTo {bits bytes : Nat} {c : Cursor} (h : Enough st bits (bytes + 1) c) :
    AnswersTo (getByte st c) (Enough st bits bytes) := by
  unfold Enough at h
  obtain ⟨hend, _⟩ | ⟨hlt, hnone, _⟩ | ⟨hlt, v, _, e⟩ := getByte_cases st c
  · omega
  · simpa [hnone] using hst _ hlt
  · refine ⟨_, _, e, ?_⟩
    simp only [Enough]
    omega

theorem getU16_answersTo {bits bytes : Nat} {c : Cursor} (h : Enough st bits (bytes + 2) c) :
    AnswersTo (getU16 st c) (Enough st bits bytes) := by
  unfold Enough at h
  obtain ⟨hend, _⟩ | ⟨hle, a, ha, hnone, _⟩ | ⟨hle, b0, b1, _, _, e⟩ := getU16_cases st c
  · omega
  · simpa [hnone] using hst a (by omega)
  · refine ⟨_, _, e, ?_⟩
    simp only [Enough]
    omega

theorem decodeShort_answersTo {c : Cursor} (h : Enough st 2 1 c) : AnswersTo (decodeShort st c) fun _ => True :=
  (getBit_answersTo hst h).andThen fun _ _ h1 => (getBit_answersTo hst h1).andThen fun _ _ h2 =>
    (getByte_answersTo hst h2).andThen fun _ _ _ => ⟨_, _, rfl, trivial⟩

theorem decodeLong_answersTo {c : Cursor} (h : Enough st 0 3 c) : AnswersTo (decodeLong st c) fun _ => True := by
  refine (getU16_answersTo hst h).andThen fun f d hd => ?_
  split
  · exact ⟨_, _, rfl, trivial⟩
  · split
    · exact (getByte_answersTo hst hd).andThen fun _ _ _ => ⟨_, _, rfl, trivial⟩
    · exact ⟨_, _, rfl, trivial⟩

/-- Four bytes are enough for any token: a control byte and three data bytes (R95, R98). -/
theorem decodeToken_answersTo {c : Cursor} (h : c.ipos + 4 ≤ st.len) : AnswersTo (decodeToken st c) fun _ => True := by
  have enough : Enough st 4 3 c := .inr ⟨by decide, h⟩
  refine (getBit_answersTo hst enough).andThen fun c0 d hd => ?_
  cases c0 with
  | true => exact (getByte_answersTo hst hd).andThen fun _ _ _ => ⟨_, _, rfl, trivial⟩
  | false =>
    refine (getBit_answersTo hst hd).andThen fun c1 d1 hd1 => ?_
    cases c1 with
    | true => exact decodeLong_answersTo hst (hd1.fewer (by decide) (by decide))
    | false => exact decodeShort_answersTo hst (hd1.fewer (by decide) (by decide))

end

/-- Settles O4: the fetch answers, a token (R84) and a well-formed one (R88). -/
theorem noControlBitsAreIllegal : Obligations.NoControlBitsAreIllegal := by
  intro st c _ hlen hst
  obtain ⟨i, c', h, _⟩ := decodeToken_answersTo hst hlen
  exact ⟨i, c', h, (decodeToken_tokenRead h).wf, decodeToken_answersToken st c i c' h⟩

end Sys2Proof.Machine
end

section
/-! A read depends on no byte but those it consumes (R97, R238). -/

namespace Sys2Proof.Machine

/-- `st'` reaches to position `n` and holds the bytes of `st` from `m` to `n`. -/
def AgreesUpTo (st st' : Stream) (m n : Nat) : Prop :=
  n ≤ st'.len ∧ ∀ a, m ≤ a → a < n → st'.byteAt a = st.byteAt a

/-- A read that never moves back, and that answers the same from every stream with the bytes it consumed. -/
def ReadsConsumed {α : Type} (read : Stream → Cursor → Read α) : Prop :=
  ∀ st c x c', read st c = .ok x c' →
    c.ipos ≤ c'.ipos ∧ ∀ st', AgreesUpTo st st' c.ipos c'.ipos → read st' c = .ok x c'

theorem readsConsumed_ok {α : Type} (x : α) : ReadsConsumed fun _ c => .ok x c := by
  intro st c y c' h
  cases h
  exact ⟨Nat.le_refl _, fun _ _ => rfl⟩

theorem ReadsConsumed.andThen {α β : Type} {read : Stream → Cursor → Read α} {k : Stream → α → Cursor → Read β}
    (hread : ReadsConsumed read) (hk : ∀ x, ReadsConsumed fun st => k st x) :
    ReadsConsumed fun st c => (read st c).andThen (k st) := by
  intro st c y c' h
  obtain ⟨x, d, hx, hy⟩ := Read.andThen_eq_ok h
  obtain ⟨hle, hsame⟩ := hread st c x d hx
  obtain ⟨hle', hsame'⟩ := hk x st d y c' hy
  refine ⟨Nat.le_trans hle hle', fun st' ⟨hlen, hbytes⟩ => ?_⟩
  simp only [hsame st' ⟨Nat.le_trans hle' hlen, fun a h1 h2 => hbytes a h1 (Nat.lt_of_lt_of_le h2 hle')⟩,
    Read.andThen_ok]
  exact hsame' st' ⟨hlen, fun a h1 h2 => hbytes a (Nat.le_trans hle h1) h2⟩

theorem getByte_of_byteAt {st : Stream} {c : Cursor} {v : Byte} (hlen : c.ipos < st.len)
    (hv : st.byteAt c.ipos = some v) : getByte st c = .ok v { c with ipos := c.ipos + 1 } := by
  rw [getByte, if_neg (Nat.not_le.2 hlen), hv]

theorem getU16_of_byteAt {st : Stream} {c : Cursor} {b0 b1 : Byte} (hlen : c.ipos + 2 ≤ st.len)
    (h0 : st.byteAt c.ipos = some b0) (h1 : st.byteAt (c.ipos + 1) = some b1) :
    getU16 st c = .ok (le16 b0 b1) { c with ipos := c.ipos + 2 } := by
  rw [getU16, if_neg (Nat.not_lt.2 hlen), h0, h1]

theorem getByte_readsConsumed : ReadsConsumed getByte := by
  intro st c x c' h
  obtain ⟨_, e⟩ | ⟨_, _, e⟩ | ⟨_, v, hv, e⟩ := getByte_cases st c <;> rw [e] at h <;> cases h
  refine ⟨Nat.le_succ _, fun st' ⟨hlen, hbytes⟩ => getByte_of_byteAt hlen ?_⟩
  rw [hbytes _ (Nat.le_refl _) (Nat.lt_succ_self _), hv]

theorem getBit_readsConsumed : ReadsConsumed getBit := by
  intro st c x c' h
  obtain ⟨hcnt, e⟩ | ⟨_, _, e⟩ | ⟨_, _, _, e⟩ | ⟨hcnt, _, v, hv, e⟩ := getBit_cases st c <;> rw [e] at h <;> cases h
  · exact ⟨Nat.le_refl _, fun _ _ => getBit_cached hcnt⟩
  · refine ⟨Nat.le_succ _, fun st' ⟨hlen, hbytes⟩ => getBit_fresh hcnt hlen ?_⟩
    rw [hbytes _ (Nat.le_refl _) (Nat.lt_succ_self _), hv]

theorem getU16_readsConsumed : ReadsConsumed getU16 := by
  intro st c x c' h
  obtain ⟨_, e⟩ | ⟨_, a, _, _, e⟩ | ⟨_, b0, b1, h0, h1, e⟩ := getU16_cases st c <;> rw [e] at h <;> cases h
  refine ⟨Nat.le_add_right _ _, fun st' ⟨hlen, hbytes⟩ => getU16_of_byteAt hlen ?_ ?_⟩
  · rw [hbytes _ (Nat.le_refl _) (by simp), h0]
  · rw [hbytes _ (by simp) (by simp), h1]

theorem decodeShort_readsConsumed : ReadsConsumed decodeShort :=
  getBit_readsConsumed.andThen fun _ => getBit_readsConsumed.andThen fun _ =>
    getByte_readsConsumed.andThen fun _ => readsConsumed_ok _

theorem decodeLong_readsConsumed : ReadsConsumed decodeLong := by
  refine getU16_readsConsumed.andThen fun f => ?_
  split
  · exact readsConsumed_ok _
  · split
    · exact getByte_readsConsumed.andThen fun _ => readsConsumed_ok _
    · exact readsConsumed_ok _

theorem decodeToken_readsConsumed : ReadsConsumed decodeToken := by
  refine getBit_readsConsumed.andThen fun c0 => ?_
  cases c0 with
  | true => exact getByte_readsConsumed.andThen fun _ => readsConsumed_ok _
  | false =>
    refine getBit_readsConsumed.andThen fun c1 => ?_
    cases c1 with
    | true => exact decodeLong_readsConsumed
    | false => exact decodeShort_readsConsumed

/-- Settles O6: each read of the fetch depends on the bytes it consumes, and so does their sequence. -/
theorem decodeReadsOnlyWhatItConsumes : Obligations.DecodeReadsOnlyWhatItConsumes := by
  intro st st' c c' i h hlen hbytes
  obtain ⟨_, hsame⟩ := decodeToken_readsConsumed st c i c' h
  exact hsame st' ⟨hlen, hbytes⟩

end Sys2Proof.Machine
end

section
/-! The packer and the fetch in step (R61 to R63, R100): a cursor that reads the finished bytes while the packer that made
them is run again, and that has read what the packer has put. -/

namespace Sys2Proof

@[simp] theorem Stream.ofList_len (bs : List Byte) : (Stream.ofList bs).len = bs.length := rfl

@[simp] theorem Stream.ofList_byteAt (bs : List Byte) (a : Nat) : (Stream.ofList bs).byteAt a = bs[a]? := rfl

/-- Bit `k` of byte `j` of a byte string. -/
def bitAt (bs : List Byte) (j k : Nat) : Bool := (bs.getD j 0).getLsbD k

theorem getElem?_of_bitAt {bs : List Byte} {j : Nat} {v : Byte} (hj : j < bs.length)
    (h : ∀ k, bitAt bs j k = v.getLsbD k) : bs[j]? = some v := by
  have hv : bs.getD j 0 = v := BitVec.eq_of_getLsbD_eq fun k _ => h k
  rw [← hv, List.getD_eq_getElem _ _ hj, List.getElem?_eq_getElem hj]

theorem bitAt_append_left {bs cs : List Byte} {j : Nat} (hj : j < bs.length) (k : Nat) :
    bitAt (bs ++ cs) j k = bitAt bs j k := by
  rw [bitAt, List.getD_append _ _ _ _ hj, bitAt]

theorem bitAt_append_singleton (bs : List Byte) (v : Byte) (k : Nat) : bitAt (bs ++ [v]) bs.length k = v.getLsbD k := by
  simp [bitAt]

/-- The packer with an empty control byte appended (R100). -/
def Packer.newCtrl (p : Packer) : Packer := { out := p.out ++ [0], cidx := some p.out.length, nbits := 0 }

/-- PutBit where there is no control byte with room (R100). -/
theorem Packer.putBit_new {p : Packer} (h : p.cidx = none ∨ p.nbits = 8) (b : Bool) :
    p.putBit b = p.newCtrl.setBit p.out.length b := by
  unfold Packer.putBit
  split
  · rename_i i hi
    rw [if_pos (h.resolve_left (by simp [hi]))]
    rfl
  · rfl

/-- PutBit into the control byte being filled (R100). -/
theorem Packer.putBit_current {p : Packer} {i : Nat} (hi : p.cidx = some i) (h8 : p.nbits ≠ 8) (b : Bool) :
    p.putBit b = p.setBit i b := by
  simp only [Packer.putBit, hi, if_neg h8]

@[simp] theorem Packer.length_setBit (p : Packer) (i : Nat) (b : Bool) : (p.setBit i b).out.length = p.out.length :=
  List.length_modify _ _ _

theorem getLsbD_bool_shiftLeft (b : Bool) (n k : Nat) :
    (BitVec.ofNat 8 b.toNat <<< n).getLsbD k = (decide (n < 8 ∧ k = n) && b) := by
  cases b with
  | false => simp
  | true => exact (BitVec.getLsbD_twoPow n k).trans (by simp [eq_comm])

/-- Setting a control bit changes no other bit, and sets one that was 0 (R100). -/
theorem Packer.bitAt_setBit (p : Packer) (i : Nat) (b : Bool) (j k : Nat) :
    bitAt (p.setBit i b).out j k =
      (bitAt p.out j k || (decide (j = i ∧ i < p.out.length ∧ p.nbits < 8 ∧ k = p.nbits) && b)) := by
  rw [bitAt, bitAt, List.getD, List.getD, Packer.setBit, List.getElem?_modify]
  by_cases hj : i = j
  · subst hj
    by_cases hlt : i < p.out.length
    · simp [hlt, getLsbD_bool_shiftLeft, -BitVec.getLsbD_shiftLeft]
    · simp [hlt]
  · simp [hj, Ne.symm hj]

/-- A bit that no later packing changes: not one of the control byte being filled that is still to come. -/
def Packer.Settled (p : Packer) (j k : Nat) : Prop := j < p.out.length ∧ (p.cidx = some j → k < p.nbits)

/-- The finished bytes `bs` may have come from `p` by more packing: they hold its settled bits. -/
def Packer.Begins (p : Packer) (bs : List Byte) : Prop :=
  p.out.length ≤ bs.length ∧ ∀ j k, p.Settled j k → bitAt bs j k = bitAt p.out j k

theorem Packer.begins_out (p : Packer) : p.Begins p.out := ⟨Nat.le_refl _, fun _ _ _ => rfl⟩

/-- Control byte `i` of the packer is being filled; the fetch has cached it as it will be and delivered the bits put so
far. -/
structure Filling (bs : List Byte) (p : Packer) (c : Cursor) (i : Nat) : Prop where
  lt : i < p.out.length
  count : c.bitcnt + p.nbits = 8
  cached : c.bitbuf = bs.getD i 0 >>> p.nbits
  unset : ∀ k, p.nbits ≤ k → bitAt p.out i k = false

/-- The fetch, reading the finished bytes `bs`, has read what the packer has put. -/
structure InStep (bs : List Byte) (p : Packer) (c : Cursor) : Prop where
  ipos : c.ipos = p.out.length
  fresh : p.cidx = none → c.bitcnt = 0
  filling : ∀ i, p.cidx = some i → Filling bs p c i

theorem inStep_start (bs : List Byte) : InStep bs .empty .start := ⟨rfl, fun _ => rfl, nofun⟩

/-- From a fetch in step with `p`, `read` delivers `x` and is in step with `p'`, whatever was packed after `p'`. -/
def Delivers {α : Type} (bs : List Byte) (p p' : Packer) (read : Cursor → Read α) (x : α) : Prop :=
  p'.Begins bs → p.Begins bs ∧ ∀ c, InStep bs p c → ∃ c', read c = .ok x c' ∧ InStep bs p' c'

theorem delivers_ok {α : Type} (bs : List Byte) (p : Packer) (x : α) : Delivers bs p p (.ok x) x :=
  fun h => ⟨h, fun c hc => ⟨c, rfl, hc⟩⟩

theorem Delivers.andThen {α β : Type} {bs : List Byte} {p p1 p2 : Packer} {read : Cursor → Read α} {x : α}
    {k : α → Cursor → Read β} {y : β} (hread : Delivers bs p p1 read x) (hk : Delivers bs p1 p2 (k x) y) :
    Delivers bs p p2 (fun c => (read c).andThen k) y := by
  intro h2
  obtain ⟨h1, hk⟩ := hk h2
  obtain ⟨h, hread⟩ := hread h1
  refine ⟨h, fun c hc => ?_⟩
  obtain ⟨d, hd, hstep⟩ := hread c hc
  obtain ⟨e, he, hstep⟩ := hk d hstep
  exact ⟨e, by simp only [hd, Read.andThen_ok, he], hstep⟩

/-! ## A data byte -/

theorem Packer.Begins.of_putByte {p : Packer} {v : Byte} {bs : List Byte} (h : (p.putByte v).Begins bs) :
    p.Begins bs := by
  obtain ⟨hlen, hbits⟩ := h
  simp only [Packer.putByte, List.length_append] at hlen
  refine ⟨by omega, fun j k ⟨hj, hk⟩ => ?_⟩
  rw [hbits j k ⟨by simp only [Packer.putByte, List.length_append]; omega, hk⟩]
  exact bitAt_append_left hj k

theorem Packer.Begins.putByte_getElem? {p : Packer} {v : Byte} {bs : List Byte} (h : (p.putByte v).Begins bs)
    (hctrl : p.cidx ≠ some p.out.length) : bs[p.out.length]? = some v := by
  obtain ⟨hlen, hbits⟩ := h
  simp only [Packer.putByte, List.length_append, List.length_singleton] at hlen
  refine getElem?_of_bitAt hlen fun k => ?_
  rw [hbits _ k ⟨by simp [Packer.putByte], fun hcur => absurd hcur hctrl⟩]
  exact bitAt_append_singleton p.out v k

/-- The control byte being filled stands before the end of the bytes packed. -/
theorem InStep.cidx_ne {bs : List Byte} {p : Packer} {c : Cursor} (h : InStep bs p c) : p.cidx ≠ some p.out.length :=
  fun hcur => absurd (h.filling _ hcur).lt (Nat.lt_irrefl _)

/-- Past one data byte the fetch is in step with the packer that put it. -/
theorem InStep.putByte {bs : List Byte} {p : Packer} {c : Cursor} (h : InStep bs p c) (v : Byte) :
    InStep bs (p.putByte v) { c with ipos := c.ipos + 1 } where
  ipos := by simp [Packer.putByte, h.ipos]
  fresh := h.fresh
  filling i hi := by
    obtain ⟨hlt, hcount, hcached, hunset⟩ := h.filling i hi
    exact ⟨by simp only [Packer.putByte, List.length_append]; omega, hcount, hcached,
      fun k hk => (bitAt_append_left hlt k).trans (hunset k hk)⟩

theorem delivers_getByte (bs : List Byte) (p : Packer) (v : Byte) :
    Delivers bs p (p.putByte v) (getByte (.ofList bs)) v := by
  refine fun h => ⟨h.of_putByte, fun c hc => ⟨_, Machine.getByte_of_byteAt ?_ ?_, hc.putByte v⟩⟩
  · simpa [Packer.putByte, hc.ipos] using h.1
  · rw [hc.ipos]
    exact h.putByte_getElem? hc.cidx_ne

theorem delivers_getU16 (bs : List Byte) (p : Packer) (b0 b1 : Byte) :
    Delivers bs p ((p.putByte b0).putByte b1) (getU16 (.ofList bs)) (le16 b0 b1) := by
  refine fun h => ⟨h.of_putByte.of_putByte, fun c hc => ⟨_, Machine.getU16_of_byteAt ?_ ?_ ?_,
    (hc.putByte b0).putByte b1⟩⟩
  · simpa [Packer.putByte, hc.ipos, Nat.add_assoc] using h.1
  · rw [hc.ipos]
    exact h.of_putByte.putByte_getElem? hc.cidx_ne
  · have hstep := hc.putByte b0
    have hget := h.putByte_getElem? hstep.cidx_ne
    rwa [← hstep.ipos] at hget

/-! ## A control bit -/

theorem Packer.Begins.of_newCtrl {p : Packer} {bs : List Byte} (h : p.newCtrl.Begins bs) : p.Begins bs := by
  obtain ⟨hlen, hbits⟩ := h
  simp only [Packer.newCtrl, List.length_append] at hlen
  refine ⟨by omega, fun j k ⟨hj, _⟩ => ?_⟩
  have hsettled : p.newCtrl.Settled j k := by
    refine ⟨by simp only [Packer.newCtrl, List.length_append]; omega, fun hcur => ?_⟩
    cases hcur
    exact absurd hj (Nat.lt_irrefl _)
  rw [hbits j k hsettled]
  exact bitAt_append_left hj k

/-- With every bit put delivered, the next control byte is fetched where the packer appends it. -/
theorem InStep.newCtrl {bs : List Byte} {p : Packer} {c : Cursor} (h : InStep bs p c) :
    InStep bs p.newCtrl { ipos := c.ipos + 1, bitbuf := bs.getD c.ipos 0, bitcnt := 8 } where
  ipos := by simp [Packer.newCtrl, h.ipos]
  fresh := nofun
  filling i hi := by
    cases hi
    refine ⟨by simp [Packer.newCtrl], rfl, by simp [Packer.newCtrl, h.ipos], fun k _ => ?_⟩
    exact (bitAt_append_singleton p.out 0 k).trans (by simp)

theorem Packer.Begins.of_setBit {bs : List Byte} {p : Packer} {i : Nat} {b : Bool} (hi : p.cidx = some i)
    (h : (p.setBit i b).Begins bs) : p.Begins bs := by
  obtain ⟨hlen, hbits⟩ := h
  refine ⟨by simpa using hlen, fun j k ⟨hj, hk⟩ => ?_⟩
  rw [hi] at hk
  have hother : ¬(j = i ∧ i < p.out.length ∧ p.nbits < 8 ∧ k = p.nbits) := by
    rintro ⟨rfl, _, _, rfl⟩
    exact Nat.lt_irrefl _ (hk rfl)
  rw [hbits j k ⟨by simpa using hj, ?_⟩, Packer.bitAt_setBit, decide_eq_false hother, Bool.false_and, Bool.or_false]
  rintro ⟨⟩
  exact Nat.lt_succ_of_lt (hk rfl)

/-- The bit the fetch has cached next is the bit the packer put next. -/
theorem InStep.takeBit {bs : List Byte} {p : Packer} {c : Cursor} {i : Nat} {b : Bool} (hc : InStep bs p c)
    (hi : p.cidx = some i) (hn : p.nbits < 8) (h : (p.setBit i b).Begins bs) :
    ∃ c', takeBit c = .ok b c' ∧ InStep bs (p.setBit i b) c' := by
  obtain ⟨hlt, hcount, hcached, hunset⟩ := hc.filling i hi
  obtain ⟨_, hbits⟩ := h
  have hbit : c.bitbuf.getLsbD 0 = b := by
    calc c.bitbuf.getLsbD 0 = bitAt bs i p.nbits := by simp [hcached, bitAt]
      _ = bitAt (p.setBit i b).out i p.nbits := hbits _ _ ⟨by simpa using hlt, fun _ => Nat.lt_succ_self _⟩
      _ = b := by simp [Packer.bitAt_setBit, hlt, hn, hunset]
  refine ⟨_, by rw [Sys2Proof.takeBit, hbit], ⟨by simpa using hc.ipos, nofun, fun j hj => ?_⟩⟩
  cases hj
  refine ⟨by simpa using hlt, ?_, ?_, fun k hk => ?_⟩
  · simp only [Packer.setBit]
    omega
  · simp only [Packer.setBit, hcached, BitVec.shiftRight_add]
  · simp only [Packer.setBit] at hk
    rw [Packer.bitAt_setBit, hunset k (by omega)]
    simp [show k ≠ p.nbits by omega]

/-- The packer has no control byte with room (R100). -/
def Packer.Full (p : Packer) : Prop := p.cidx = none ∨ p.nbits = 8

theorem Packer.Begins.of_putBit {bs : List Byte} {p : Packer} {b : Bool} (h : (p.putBit b).Begins bs) :
    p.Begins bs := by
  by_cases hfull : p.Full
  · rw [Packer.putBit_new hfull] at h
    exact (h.of_setBit rfl).of_newCtrl
  · obtain ⟨hsome, h8⟩ := not_or.1 hfull
    obtain ⟨i, hi⟩ := Option.ne_none_iff_exists'.1 hsome
    rw [Packer.putBit_current hi h8] at h
    exact h.of_setBit hi

/-- The fetch has no bit cached exactly where the packer has no control byte with room. -/
theorem InStep.bitcnt_eq_zero_iff {bs : List Byte} {p : Packer} {c : Cursor} (h : InStep bs p c) :
    c.bitcnt = 0 ↔ p.Full := by
  unfold Packer.Full
  cases hi : p.cidx with
  | none => simp [h.fresh hi]
  | some i =>
    have hcount := (h.filling i hi).count
    simp only [reduceCtorEq, false_or]
    omega

theorem delivers_getBit (bs : List Byte) (p : Packer) (b : Bool) :
    Delivers bs p (p.putBit b) (getBit (.ofList bs)) b := by
  refine fun h => ⟨h.of_putBit, fun c hc => ?_⟩
  by_cases hfull : p.Full
  · rw [Packer.putBit_new hfull] at h ⊢
    have hlen : c.ipos < bs.length := by simpa [Packer.newCtrl, hc.ipos] using h.1
    have hbyte : bs[c.ipos]? = some (bs.getD c.ipos 0) := by
      rw [List.getElem?_eq_getElem hlen, List.getD_eq_getElem _ _ hlen]
    rw [getBit, if_pos (hc.bitcnt_eq_zero_iff.2 hfull), Machine.getByte_of_byteAt hlen hbyte, Read.andThen_ok]
    exact hc.newCtrl.takeBit rfl (Nat.succ_pos 7) h
  · obtain ⟨hsome, h8⟩ := not_or.1 hfull
    obtain ⟨i, hi⟩ := Option.ne_none_iff_exists'.1 hsome
    have hcount := (hc.filling i hi).count
    rw [Packer.putBit_current hi h8] at h ⊢
    rw [getBit, if_neg (mt hc.bitcnt_eq_zero_iff.1 hfull)]
    exact hc.takeBit hi (by omega) h

/-! ## Tokens and programs -/

theorem le16_fieldBytes (f : BitVec 16) : le16 (f.extractLsb' 0 8) (f.extractLsb' 8 8) = f :=
  (BitVec.extractLsb'_append_extractLsb'_eq_extractLsb' rfl).trans BitVec.extractLsb'_eq_self

theorem longField_fields (q : BitVec 13) (sz : BitVec 3) :
    (longField q sz).extractLsb' 3 13 = q ∧ (longField q sz).extractLsb' 0 3 = sz :=
  ⟨BitVec.extractLsb'_append_eq_left, BitVec.extractLsb'_append_eq_right⟩

/-- R87: the two data bytes of a long token's field are read back as the field. -/
theorem delivers_field (bs : List Byte) (p : Packer) (f : BitVec 16) :
    Delivers bs p ((fieldBytes f).foldl Packer.putByte p) (getU16 (.ofList bs)) f := by
  have h := delivers_getU16 bs p (f.extractLsb' 0 8) (f.extractLsb' 8 8)
  rwa [le16_fieldBytes] at h

theorem delivers_lcopy (bs : List Byte) (p : Packer) (q : BitVec 13) {sz : BitVec 3} (hsz : sz ≠ 0) :
    Delivers bs p ((fieldBytes (longField q sz)).foldl Packer.putByte p) (decodeLong (.ofList bs)) (.lcopy q sz) := by
  obtain ⟨hq, hs⟩ := longField_fields q sz
  have hne : longField q sz ≠ 0 := Machine.ne_zero_of_sizeCode_ne_zero (hs.symm ▸ hsz)
  refine (delivers_field bs p (longField q sz)).andThen ?_
  simp only [if_neg hne, hq, hs, if_neg hsz]
  exact delivers_ok bs _ _

theorem delivers_lcopyx (bs : List Byte) (p : Packer) {q : BitVec 13} (n : Byte) (hq0 : q ≠ 0) :
    Delivers bs p ((fieldBytes (longField q 0) ++ [n]).foldl Packer.putByte p) (decodeLong (.ofList bs))
      (.lcopyx q n) := by
  obtain ⟨hq, hs⟩ := longField_fields q 0
  have hne : longField q 0 ≠ 0 := by
    intro hzero
    rw [hzero] at hq
    exact hq0 hq.symm
  refine (delivers_field bs p (longField q 0)).andThen ?_
  simp only [if_neg hne, hq, hs, if_true]
  exact (delivers_getByte bs _ n).andThen (delivers_ok bs _ _)

/-- A packed token is read back as itself (R84 to R88, R100). -/
theorem delivers_token (bs : List Byte) (p : Packer) {i : Instr} (hi : Machine.Instr.isToken i = true)
    (hwf : i.wf = true) : Delivers bs p (p.put i) (decodeToken (.ofList bs)) i := by
  cases i with
  | keyload | encbuf | decbuf | dstart => cases hi
  | lit v => exact (delivers_getBit bs _ true).andThen ((delivers_getByte bs _ v).andThen (delivers_ok bs _ _))
  | scopy a b o =>
    refine (delivers_getBit bs _ false).andThen ((delivers_getBit bs _ false).andThen ?_)
    refine (delivers_getBit bs _ a).andThen ((delivers_getBit bs _ b).andThen ?_)
    exact (delivers_getByte bs _ o).andThen (delivers_ok bs _ _)
  | lcopy q sz =>
    refine (delivers_getBit bs _ false).andThen ((delivers_getBit bs _ true).andThen ?_)
    exact delivers_lcopy bs _ q (bne_iff_ne.1 hwf)
  | lcopyx q n =>
    refine (delivers_getBit bs _ false).andThen ((delivers_getBit bs _ true).andThen ?_)
    exact delivers_lcopyx bs _ n (bne_iff_ne.1 hwf)
  | endMark =>
    refine (delivers_getBit bs _ false).andThen ((delivers_getBit bs _ true).andThen ?_)
    exact (delivers_field bs _ 0).andThen (delivers_ok bs _ _)

/-- A token packed alone is the first of its bytes. -/
theorem decodeBytes_put {i : Instr} (hi : Machine.Instr.isToken i = true) (hwf : i.wf = true) :
    ∃ c, decodeBytes (Packer.empty.put i).out = .ok i c := by
  obtain ⟨_, hread⟩ := delivers_token _ .empty hi hwf (Packer.begins_out _)
  obtain ⟨c, hc, _⟩ := hread _ (inStep_start _)
  exact ⟨c, hc⟩

theorem decodeEncoding_of_decodeBytes {ctrl : List Bool} {data : List Byte} {i : Instr} {c : Cursor}
    (h : decodeBytes (data.foldl Packer.putByte (ctrl.foldl Packer.putBit .empty)).out = .ok i c) :
    decodeEncoding (.token ctrl data) = some i := by
  rw [decodeEncoding, h]

/-- A token that does not end the run is followed by what the cursor after it reads. -/
theorem decodeTokens_of_body {st : Stream} {c c' : Cursor} {i : Instr} (hi : Machine.Instr.isBody i = true)
    (h : decodeToken st c = .ok i c') (fuel : Nat) :
    decodeTokens st (fuel + 1) c = (decodeTokens st fuel c').map (i :: ·) := by
  rw [decodeTokens, h]
  cases i with
  | keyload | encbuf | decbuf | dstart | endMark => cases hi
  | lit | scopy | lcopy | lcopyx => rfl

theorem decodeTokens_of_endMark {st : Stream} {c c' : Cursor} (h : decodeToken st c = .ok .endMark c') (fuel : Nat) :
    decodeTokens st (fuel + 1) c = some [.endMark] := by
  rw [decodeTokens, h]

/-- A packed program is read back by a fetch in step with the packer it began from (R100). -/
theorem decodeTokens_packed {bs : List Byte} {p : Packer} {ts : List Instr}
    (hts : ∀ i ∈ ts, Machine.Instr.isBody i = true ∧ i.wf = true)
    (h : ((ts ++ [Instr.endMark]).foldl Packer.put p).Begins bs) :
    p.Begins bs ∧ ∀ c, InStep bs p c → decodeTokens (.ofList bs) (ts.length + 1) c = some (ts ++ [.endMark]) := by
  induction ts generalizing p with
  | nil =>
    obtain ⟨hbegins, hread⟩ := delivers_token bs p (i := .endMark) rfl rfl h
    refine ⟨hbegins, fun c hc => ?_⟩
    obtain ⟨c', hc', _⟩ := hread c hc
    exact decodeTokens_of_endMark hc' 0
  | cons i ts ih =>
    obtain ⟨⟨hbody, hwf⟩, hts⟩ := List.forall_mem_cons.1 hts
    obtain ⟨hput, hrest⟩ := ih hts h
    obtain ⟨hbegins, hread⟩ := delivers_token bs p (by simp [Machine.Instr.isToken, hbody]) hwf hput
    refine ⟨hbegins, fun c hc => ?_⟩
    obtain ⟨c', hc', hstep⟩ := hread c hc
    rw [List.length_cons, decodeTokens_of_body hbody hc', hrest c' hstep]
    rfl

end Sys2Proof

namespace Sys2Proof.Machine

/-- Settles O1: the four commands by their codes, a token from the bytes the packer makes of it alone. -/
theorem encodeDecodeRoundTrip : Obligations.EncodeDecodeRoundTrip := by
  intro i hwf
  cases i with
  | keyload | encbuf | decbuf | dstart => decide
  | lit | scopy | lcopy | lcopyx | endMark =>
    obtain ⟨c, h⟩ := decodeBytes_put rfl hwf
    exact decodeEncoding_of_decodeBytes h

/-- Settles O2, by induction on the program, with the fetch in step with the packer from token to token. -/
theorem packedProgramReadsBack : Obligations.PackedProgramReadsBack := by
  intro ts hts
  exact (decodeTokens_packed hts (Packer.begins_out _)).2 _ (inStep_start _)

end Sys2Proof.Machine
end

section
/-! The copies that succeed, in closed form, and the one whose offset is no distance (R93, R164 to R169). -/

namespace Sys2Proof.Machine

/-- A run of bytes each of which equals the one `d` before it repeats the `d` bytes before the run (R169). -/
theorem periodic_eq {α : Type} {g : Nat → α} {p d n : Nat} (hd : 0 < d) (hp : d ≤ p)
    (h : ∀ k, k < n → g (p + k) = g (p + k - d)) {k : Nat} (hk : k < n) : g (p + k) = g (p - d + k % d) := by
  induction k using Nat.strongRecOn with
  | ind k ih =>
    rw [h k hk]
    by_cases hkd : k < d
    · rw [Nat.mod_eq_of_lt hkd, show p + k - d = p - d + k by omega]
    · rw [Nat.mod_eq_sub_mod (Nat.not_lt.1 hkd), ← ih (k - d) (by omega) (by omega),
        show p + k - d = p + (k - d) by omega]

/-- A copy that is ready runs, and leaves its closed form (R169). -/
theorem copyBack_copied {d n : Nat} {s : State} (h : CopyReady s d n) :
    ∃ t, copyBack d n s = .next t ∧ Copied s d n t := by
  obtain ⟨hd, hle, hwin, hroom⟩ := h
  have hneg : -(d : Int) < 0 := by omega
  obtain ⟨w, hw⟩ : ∃ w, copySteps s.cfg.doutCap (-(d : Int)) n s.win = .ok w :=
    copySteps_succeeds hneg (by simp only [State.win_opos]; omega)
      (fun a h1 h2 => hwin a (by simp only [State.win_opos] at h1; omega) h2) hroom
  obtain ⟨hopos, hsame, hframe, _, _⟩ := copySteps_ok hw hneg
  refine ⟨endToken (s.setWin w), by rw [copyBack, copy_of_neg hneg, hw]; rfl, rfl, hopos, fun k hk => ?_, hframe⟩
  have hperiod : ∀ j, j < n → Memory.read w.dout (s.dcmp.opos + j) = Memory.read w.dout (s.dcmp.opos + j - d) := by
    intro j hj
    obtain ⟨_, _, e⟩ := hsame j hj
    exact e.trans (by simp only [State.win_opos]; congr 1; omega)
  have hlast := Nat.mod_lt k hd
  exact (periodic_eq hd hle hperiod hk).trans (hframe _ (.inl (by simp only [State.win_opos]; omega)))

/-- Settles O17: SCOPY is a copy over a distance of 1 to 256. -/
theorem scopyCopies : Obligations.ScopyCopies := by
  intro a b o s h
  exact exec_scopy_eq a b o s ▸ copyBack_copied h

/-- Settles O18: LCOPY is a copy over the distance its field names. -/
theorem lcopyCopies : Obligations.LcopyCopies := by
  intro q sz s hq h
  exact exec_lcopy_eq hq sz ▸ copyBack_copied h

/-- Settles O19: LCOPYX is a copy over the distance its field names. -/
theorem lcopyxCopies : Obligations.LcopyxCopies := by
  intro q n s hq h
  exact exec_lcopyx_eq hq n ▸ copyBack_copied h

/-- A copy with an offset that is not negative faults before its first step (R168). -/
theorem copy_of_nonneg {cap : Option Nat} {off : Int} {n : Nat} {w : Win} (h : 0 ≤ off) :
    copy cap off n w = .raise .nonNegativeOffset := if_pos h

/-- Settles O21: the offset is the field itself, and either long copy tests it first. -/
theorem nonNegativeOffsetFaults : Obligations.NonNegativeOffsetFaults := by
  intro s q hmode hq
  have hoff : 0 ≤ longOffset s.cfg.longOffset q := by
    rw [hmode, longOffset, sext13_of_lt hq]
    omega
  exact ⟨fun sz => finishToken_dfault (c := .nonNegativeOffset) (copy_of_nonneg hoff),
    fun n => finishToken_dfault (c := .nonNegativeOffset) (copy_of_nonneg hoff)⟩

/-- Settles O56, apart for fields with top bit 0 and with top bit 1. -/
theorem longOffsetReadings : Obligations.LongOffsetReadings := by
  intro q
  have hq := q.isLt
  have hor : longOffset .orM8192 q = (q.toNat : Int) - 8192 := rfl
  by_cases h : q.toNat < 4096
  · have hsext : longOffset .sext13 q = q.toNat := sext13_of_lt h
    omega
  · have hsext : longOffset .sext13 q = (q.toNat : Int) - 8192 := sext13_of_le (Nat.not_lt.1 h)
    omega

end Sys2Proof.Machine
end

section
/-! A host write to a command register: the command it stands for, or IllegalCommand (R80, R81). -/

namespace Sys2Proof.Machine

theorem writeCCmd_of_some {s : State} {w : Word} {i : Instr} (hb : s.ciph.status.busy = false)
    (h : decodeCCmd w = some i) : writeCCmd w s = exec i s := by
  rw [writeCCmd, if_neg (by simp [hb]), h]

theorem writeDCmd_of_some {s : State} {w : Word} {i : Instr} (hb : s.dcmp.status.busy = false)
    (h : decodeDCmd w = some i) : writeDCmd w s = exec i s := by
  rw [writeDCmd, if_neg (by simp [hb]), h]

theorem writeCCmd_of_none {s : State} {w : Word} (hb : s.ciph.status.busy = false) (h : decodeCCmd w = none) :
    writeCCmd w s = .next (illegalC s) := by
  rw [writeCCmd, if_neg (by simp [hb]), h]

theorem writeDCmd_of_none {s : State} {w : Word} (hb : s.dcmp.status.busy = false) (h : decodeDCmd w = none) :
    writeDCmd w s = .next (illegalD s) := by
  rw [writeDCmd, if_neg (by simp [hb]), h]

/-- Settles O10: the step performs the write, and the write is exec of its command. -/
theorem stepRunsWrittenCommand : Obligations.StepRunsWrittenCommand := by
  intro s w i rest
  refine ⟨fun hq hb h => ?_, fun hq hb h => ?_⟩
  · rw [step_of_due hq]
    exact writeCCmd_of_some (s := { s with hostq := rest }) hb h
  · rw [step_of_due hq]
    exact writeDCmd_of_some (s := { s with hostq := rest }) hb h

/-- The only code of D_CMD (R80). -/
theorem eq_one_of_decodeDCmd {w : Word} {i : Instr} (h : decodeDCmd w = some i) : w = 1 := by
  unfold decodeDCmd at h
  split at h
  · rename_i hhigh
    split at h
    · rename_i hlow
      exact eq_of_extractLsb'_zero (by decide) hhigh hlow
    · cases h
  · cases h

theorem decodeCCmd_reserved {w : Word} (h1 : w ≠ 1) (h2 : w ≠ 2) (h3 : w ≠ 3) : decodeCCmd w = none := by
  cases h : decodeCCmd w with
  | none => rfl
  | some i =>
    obtain ⟨_, e⟩ | ⟨_, e⟩ | ⟨_, e⟩ := decodeCCmd_some h
    · exact absurd e h1
    · exact absurd e h2
    · exact absurd e h3

theorem decodeDCmd_reserved {w : Word} (h1 : w ≠ 1) : decodeDCmd w = none := by
  cases h : decodeDCmd w with
  | none => rfl
  | some i => exact absurd (eq_one_of_decodeDCmd h) h1

/-- Settles O11: a reserved code decodes to no command, and what the write then does is IllegalCommand. -/
theorem reservedCommandsChangeOnlyStatus : Obligations.ReservedCommandsChangeOnlyStatus := by
  intro s w rest
  refine ⟨fun hq hb h1 h2 h3 => ?_, fun hq hb h1 => ?_⟩
  · rw [step_of_due hq]
    exact writeCCmd_of_none (s := { s with hostq := rest }) hb (decodeCCmd_reserved h1 h2 h3)
  · rw [step_of_due hq]
    exact writeDCmd_of_none (s := { s with hostq := rest }) hb (decodeDCmd_reserved h1)

/-- Settles O8, by running the decoders on the sample words. -/
theorem sampleWordsDecode : Obligations.SampleWordsDecode := by
  unfold Obligations.SampleWordsDecode
  decide

end Sys2Proof.Machine
end

section
/-! KEYLOAD path by path (R110, R111, R119): the equation of each path, and what its outcome depends on (R118, R120). -/

namespace Sys2Proof.Machine

/-! ## The three paths -/

theorem exec_keyload_of_idle {s : State} (hb : s.ciph.status.busy = false) :
    exec .keyload s = loadKey (startC { s with ciph := { s.ciph with keyed := false } }) :=
  if_neg (by simp [hb])

theorem exec_keyload_tooLong {s : State} (hb : s.ciph.status.busy = false) (hlen : s.cfg.kbufCap < s.ciph.cLen.toNat) :
    exec .keyload s =
      .next (raiseKeyload .lengthExceedsBuffer (startC { s with ciph := { s.ciph with keyed := false } })) :=
  (exec_keyload_of_idle hb).trans (if_pos hlen)

theorem exec_keyload_tooShort {s : State} (hb : s.ciph.status.busy = false) (hlen : s.ciph.cLen.toNat ≤ s.cfg.kbufCap)
    (hwords : s.ciph.cLen.toNat / 4 = 0) :
    exec .keyload s = .next (raiseKeyload .keyTooShort (startC { s with ciph := { s.ciph with keyed := false } })) :=
  (exec_keyload_of_idle hb).trans ((if_neg (Nat.not_lt.2 hlen)).trans (if_pos hwords))

theorem loadKey_of_keyWords {s : State} {k : List Word} (hlen : s.ciph.cLen.toNat ≤ s.cfg.kbufCap)
    (hwords : s.ciph.cLen.toNat / 4 ≠ 0)
    (hk : keyWords s.ciph.kbuf 0 (min (s.ciph.cLen.toNat / 4) 18) = .ok k) :
    loadKey s = .next (haltC { s with ciph := { s.ciph with
      tab := keySchedule s.cfg.ks s.cfg.init k, keyed := true, temps := freeCiphTemps s.ciph.free } }) := by
  rw [loadKey, if_neg (Nat.not_lt.2 hlen), if_neg hwords, hk]

theorem exec_keyload_loads {s : State} {k : List Word} (hb : s.ciph.status.busy = false)
    (hlen : s.ciph.cLen.toNat ≤ s.cfg.kbufCap) (hwords : s.ciph.cLen.toNat / 4 ≠ 0)
    (hk : keyWords s.ciph.kbuf 0 (min (s.ciph.cLen.toNat / 4) 18) = .ok k) :
    exec .keyload s = .next (haltC (startC { s with ciph := { s.ciph with
      tab := keySchedule s.cfg.ks s.cfg.init k, keyed := true, temps := freeCiphTemps s.ciph.free } })) :=
  (exec_keyload_of_idle hb).trans (loadKey_of_keyWords hlen hwords hk)

/-- What a KEYLOAD that succeeds leaves (R116). -/
theorem exec_keyload_done {s : State} {k : List Word} (hb : s.ciph.status.busy = false)
    (hlen : s.ciph.cLen.toNat ≤ s.cfg.kbufCap) (hwords : s.ciph.cLen.toNat / 4 ≠ 0)
    (hk : keyWords s.ciph.kbuf 0 (min (s.ciph.cLen.toNat / 4) 18) = .ok k) :
    ∃ t, exec .keyload s = .next t ∧ CDone s t ∧ t.ciph.tab = keySchedule s.cfg.ks s.cfg.init k ∧
      t.ciph.keyed = true ∧ t.ciph.cbuf = s.ciph.cbuf :=
  ⟨_, exec_keyload_loads hb hlen hwords hk, rfl, rfl, rfl, rfl⟩

/-- Settles O32: the two faults, of which only the tables go beyond what every fault of CIPH changes. -/
theorem keyloadFaultsUnkeyed : Obligations.KeyloadFaultsUnkeyed := by
  intro s hb
  refine ⟨fun hlen => ?_, fun hlen hshort => ?_⟩
  · exact ⟨_, exec_keyload_tooLong hb hlen, rfl⟩
  · exact ⟨_, exec_keyload_tooShort hb hlen (Nat.div_eq_of_lt hshort), rfl⟩

/-- Settles O41: no test of KEYLOAD and no value it leaves in P, S, KEYED or the status looks at P, S, KEYED or CBUF. -/
theorem rekeyingForgetsTheOldKey : Obligations.RekeyingForgetsTheOldKey := by
  intro s t tab keyed cbuf h
  obtain ⟨hb, ⟨hlen, rfl⟩ | ⟨hlen, hwords, rfl⟩ | ⟨hlen, hwords, k, hk, rfl⟩⟩ := execKeyload_next h
  · exact ⟨_, exec_keyload_tooLong hb hlen, rfl, rfl, rfl⟩
  · exact ⟨_, exec_keyload_tooShort hb hlen hwords, rfl, rfl, rfl⟩
  · exact ⟨_, exec_keyload_loads hb hlen hwords hk, rfl, rfl, rfl⟩

/-! ## The bytes of the key that are read -/

theorem keyWord_congr {m m' : Memory} {j : Nat}
    (h : ∀ x, 4 * j ≤ x → x < 4 * (j + 1) → Memory.read m x = Memory.read m' x) :
    keyWord m j = keyWord m' j := by
  have need : ∀ x, 4 * j ≤ x → x < 4 * (j + 1) → Memory.need m x = Memory.need m' x := fun x h1 h2 => by
    rw [Memory.need, Memory.need, h x h1 h2]
  simp only [keyWord, need (4 * j) (by omega) (by omega), need (4 * j + 1) (by omega) (by omega),
    need (4 * j + 2) (by omega) (by omega), need (4 * j + 3) (by omega) (by omega)]

theorem keyWords_congr {m m' : Memory} {j count : Nat}
    (h : ∀ x, 4 * j ≤ x → x < 4 * (j + count) → Memory.read m x = Memory.read m' x) :
    keyWords m j count = keyWords m' j count := by
  induction count generalizing j with
  | zero => rfl
  | succ count ih =>
    have hfirst : keyWord m j = keyWord m' j := keyWord_congr fun x h1 h2 => h x h1 (by omega)
    have hrest : keyWords m (j + 1) count = keyWords m' (j + 1) count := ih fun x h1 h2 => h x (by omega) (by omega)
    rw [keyWords, keyWords, hfirst, hrest]

/-- A KEYLOAD that ends keyed leaves the tables of the at most 18 key words it read. -/
theorem tab_of_keyload_keyed {s t : State} (h : exec .keyload s = .next t) (hkeyed : t.ciph.keyed = true) :
    ∃ k, keyWords s.ciph.kbuf 0 (min (s.ciph.cLen.toNat / 4) 18) = .ok k ∧
      t.ciph.tab = keySchedule s.cfg.ks s.cfg.init k := by
  obtain ⟨_, ⟨_, rfl⟩ | ⟨_, _, rfl⟩ | ⟨_, _, k, hk, rfl⟩⟩ := execKeyload_next h
  · cases hkeyed
  · cases hkeyed
  · exact ⟨k, hk, rfl⟩

/-- Settles O40: the two keys are read as the same words. -/
theorem keyTailIsIgnored : Obligations.KeyTailIsIgnored := by
  intro s s' t t' hcfg h h' hkeyed hkeyed' hcount hbytes
  obtain ⟨k, hk, htab⟩ := tab_of_keyload_keyed h hkeyed
  obtain ⟨k', hk', htab'⟩ := tab_of_keyload_keyed h' hkeyed'
  have hmin : min (s'.ciph.cLen.toNat / 4) 18 = min (s.ciph.cLen.toNat / 4) 18 := by omega
  have hread : keyWords s.ciph.kbuf 0 (min (s.ciph.cLen.toNat / 4) 18) =
      keyWords s'.ciph.kbuf 0 (min (s.ciph.cLen.toNat / 4) 18) :=
    keyWords_congr fun x _ hx => hbytes x (by omega) (by omega)
  rw [hmin, ← hread, hk] at hk'
  rw [htab, htab', hcfg, Except.ok.inj hk']

end Sys2Proof.Machine
end

section
/-! The key schedule encryption by encryption (R114, R115, R117): which slot each of the 521 fills, and with what. -/

namespace Sys2Proof.Machine

/-- The key words go into P alone (R113). -/
theorem mixKey_s (t : Tables) (k : List Word) : (mixKey t k).s = t.s := by
  rw [mixKey]

/-! ## Slots -/

theorem get_set_pair {α : Type} {n a : Nat} (v : Vector α n) (h : a + 1 < n) (x y : α) (i : Fin n) :
    ((v.set a x).set (a + 1) y).get i = if i.val = a then x else if i.val = a + 1 then y else v.get i := by
  show ((v.set a x).set (a + 1) y)[i.val] = _
  rw [Vector.getElem_set, Vector.getElem_set]
  by_cases hi : i.val = a
  · rw [if_neg (by omega), if_pos hi.symm, if_pos hi]
  · simp only [hi, Ne.symm hi, eq_comm (a := a + 1), if_false]
    rfl

theorem Slot.fill_p_get (t : Tables) (w : Word × Word) (i : Fin 9) (x : Fin 18) :
    ((Slot.p i).fill t w).p.get x =
      if x.val = 2 * i.val then w.1 else if x.val = 2 * i.val + 1 then w.2 else t.p.get x :=
  get_set_pair t.p (by omega) w.1 w.2 x

theorem Slot.fill_s_get (t : Tables) (w : Word × Word) (b : Fin 4) (k : Fin 128) (c : Fin 4) (x : Fin 256) :
    (((Slot.s b k).fill t w).s.get c).get x =
      if c.val = b.val ∧ x.val = 2 * k.val then w.1
      else if c.val = b.val ∧ x.val = 2 * k.val + 1 then w.2 else (t.s.get c).get x := by
  by_cases hc : c = b
  · subst hc
    have hbox : ((Slot.s c k).fill t w).s.get c = ((t.s.get c).set (2 * k.val) w.1).set (2 * k.val + 1) w.2 :=
      Vector.getElem_set_self ..
    simp only [hbox, get_set_pair, true_and]
  · have hne : c.val ≠ b.val := Fin.val_ne_of_ne hc
    have hbox : ((Slot.s b k).fill t w).s.get c = t.s.get c := Vector.getElem_set_ne b.isLt c.isLt hne.symm
    simp only [hbox, hne, false_and, if_false]

/-- A list of runs of one length, by the number of the run and the place in it. -/
theorem getElem?_flatMap_of_length {α β : Type} {f : α → List β} {n : Nat} {l : List α}
    (hf : ∀ a ∈ l, (f a).length = n) (i : Nat) {k : Nat} (hk : k < n) :
    (l.flatMap f)[n * i + k]? = l[i]?.bind fun a => (f a)[k]? := by
  induction l generalizing i with
  | nil => rfl
  | cons a l ih =>
    have ha : (f a).length = n := hf a List.mem_cons_self
    rw [List.flatMap_cons]
    cases i with
    | zero => rw [List.getElem?_append_left (by omega)]; simp
    | succ i =>
      rw [List.getElem?_append_right (by rw [Nat.mul_succ]; omega), ha,
        show n * (i + 1) + k - n = n * i + k by rw [Nat.mul_succ]; omega]
      exact ih (fun b hb => hf b (List.mem_cons_of_mem _ hb)) i

/-- The slots in the order of the decided readings (R114, R115, D9). -/
def decidedSlots : List Slot := pSlots ++ sSlots .boxByBox

theorem decidedSlots_length : decidedSlots.length = 521 := by
  simp [decidedSlots, pSlots, sSlots]

theorem decidedSlots_p {j : Nat} (hj : j < 9) : decidedSlots[j]? = some (.p ⟨j, hj⟩) := by
  rw [decidedSlots, List.getElem?_append_left (by simpa [pSlots] using hj)]
  simp [pSlots, hj]

theorem decidedSlots_s {j : Nat} (hj : j < 512) :
    decidedSlots[j + 9]? = some (.s ⟨j / 128, by omega⟩ ⟨j % 128, by omega⟩) := by
  have hrun : (sSlots .boxByBox)[128 * (j / 128) + j % 128]? =
      some (.s ⟨j / 128, by omega⟩ ⟨j % 128, by omega⟩) := by
    rw [sSlots, getElem?_flatMap_of_length (by simp) _ (Nat.mod_lt j (by decide))]
    simp [show j / 128 < 4 by omega, Nat.mod_lt]
  rw [decidedSlots, List.getElem?_append_right (by simp [pSlots])]
  simpa [pSlots, Nat.div_add_mod] using hrun

/-! ## The schedule under way -/

/-- The tables and the block D before the first encryption (R112 to R114). -/
def schedStart (init : Tables) (k : List Word) : Sched := { tab := mixKey init k, d := zeroBlock }

/-- The tables and the block D after `j` encryptions from `x` on (R36 (b)), under the decided readings. -/
def schedAfter (x : Sched) (j : Nat) : Sched := (decidedSlots.take j).foldl (schedStep .decided) x

theorem schedAfter_succ {j : Nat} {slot : Slot} (x : Sched) (h : decidedSlots[j]? = some slot) :
    schedAfter x (j + 1) = schedStep .decided (schedAfter x j) slot := by
  rw [schedAfter, List.take_add_one, h, List.foldl_append]
  rfl

theorem keySchedule_decided (init : Tables) (k : List Word) :
    keySchedule .decided init k = (schedAfter (schedStart init k) 521).tab := by
  rw [schedAfter, List.take_of_length_le (Nat.le_of_eq decidedSlots_length)]
  rfl

theorem schedAfter_succ_d (x : Sched) {j : Nat} (hj : j < 521) :
    (schedAfter x (j + 1)).d = encBlock (schedAfter x j).tab (schedAfter x j).d := by
  rw [schedAfter_succ x (List.getElem?_eq_getElem (decidedSlots_length ▸ hj))]
  rfl

theorem schedAfter_succ_tab (x : Sched) {j : Nat} {slot : Slot} (h : decidedSlots[j]? = some slot) :
    (schedAfter x (j + 1)).tab = slot.fill (schedAfter x j).tab (outputWords .leInOrder (schedAfter x (j + 1)).d) := by
  rw [schedAfter_succ x h]
  rfl

/-- The key schedule as a run of 521 encryptions, of which number `j` fills slot `j` (R114, R115, R117). -/
theorem keySchedule_decided_steps (init : Tables) (k : List Word) :
    ∃ (T : Nat → Tables) (D : Nat → Block), T 0 = mixKey init k ∧ D 0 = zeroBlock ∧
      T 521 = keySchedule .decided init k ∧ (∀ j, j < 521 → D (j + 1) = encBlock (T j) (D j)) ∧
      ∀ j slot, decidedSlots[j]? = some slot → T (j + 1) = slot.fill (T j) (outputWords .leInOrder (D (j + 1))) :=
  ⟨fun j => (schedAfter (schedStart init k) j).tab, fun j => (schedAfter (schedStart init k) j).d, rfl, rfl,
    (keySchedule_decided init k).symm, fun _ hj => schedAfter_succ_d _ hj, fun _ _ h => schedAfter_succ_tab _ h⟩

/-- Settles O31: what each encryption changes is what filling its slot changes. -/
theorem keyloadRunsSchedule : Obligations.KeyloadRunsSchedule := by
  intro s g hb hks hmin hlen hread
  obtain ⟨k, hk, hmix⟩ := keyWords_mixed (by omega) hread s.cfg.init
  obtain ⟨t, ht, hdone, htab, hkeyed, hcbuf⟩ := exec_keyload_done hb hlen (by omega) hk
  obtain ⟨T, D, hT0, hD0, hTlast, hD, hT⟩ := keySchedule_decided_steps s.cfg.init k
  rw [hks, ← hTlast] at htab
  refine ⟨T, D, t, ht, ?mixed, ?boxes, ?zero, hD, fun j hj => ?pPhase, fun j hj => ?sPhase, hdone, htab, hkeyed,
    hcbuf⟩
  case mixed =>
    rw [hT0]
    exact hmix
  case boxes =>
    rw [hT0, mixKey_s]
  case zero =>
    rw [hD0]
    exact fun j => Vector.getElem_replicate j.isLt
  case pPhase =>
    rw [hT j _ (decidedSlots_p hj)]
    exact ⟨rfl, Slot.fill_p_get _ _ _⟩
  case sPhase =>
    rw [hT (j + 9) _ (decidedSlots_s hj)]
    exact ⟨rfl, Slot.fill_s_get _ _ _ _⟩

end Sys2Proof.Machine
end

section
/-! The block transforms: F on numbers (R130), and EncBlock and DecBlock as each other's inverse (R131, R132, R136). -/

namespace Sys2Proof.Machine

/-! ## The round function -/

/-- Byte `k` of a word as an index into an S-box. -/
theorem toFin_byteOf {k : Nat} {x : Word} {i : Fin 256} (h : i.val = x.toNat / 2 ^ (8 * k) % 256) :
    (byteOf k x).toFin = i := by
  refine Fin.ext ?_
  rw [h, BitVec.val_toFin, byteOf, BitVec.extractLsb'_toNat, Nat.shiftRight_eq_div_pow]

/-- Settles O27: the indices are the bytes of x, and the word operations are those on numbers. -/
theorem roundFunctionOnNumbers : Obligations.RoundFunctionOnNumbers := by
  intro t x i0 i1 i2 i3 h0 h1 h2 h3
  have hx : x.toNat / 2 ^ 24 % 256 = x.toNat / 2 ^ 24 := Nat.mod_eq_of_lt (by have := x.isLt; omega)
  rw [roundF, sbox, sbox, sbox, sbox, toFin_byteOf (k := 3) (h0.trans hx.symm), toFin_byteOf (k := 2) h1,
    toFin_byteOf (k := 1) h2, toFin_byteOf (k := 0) (h3.trans (by simp)), BitVec.toNat_add, BitVec.toNat_xor,
    BitVec.toNat_add]

/-! ## The inverse -/

/-- The halves exchanged, as StoreBlock followed by LoadBlock leaves them (R53). -/
def Halves.swap (h : Halves) : Halves := { l := h.r, r := h.l }

theorem le32_byteOf (x : Word) : le32 (byteOf 0 x) (byteOf 1 x) (byteOf 2 x) (byteOf 3 x) = x := by
  simp only [le32, byteOf]
  rw [BitVec.extractLsb'_append_extractLsb'_eq_extractLsb' (by decide),
    BitVec.extractLsb'_append_extractLsb'_eq_extractLsb' (by decide),
    BitVec.extractLsb'_append_extractLsb'_eq_extractLsb' (by decide)]
  exact BitVec.extractLsb'_eq_self

theorem loadBlock_storeBlock (h : Halves) : loadBlock (storeBlock h) = h.swap :=
  congrArg₂ Halves.mk (le32_byteOf h.r) (le32_byteOf h.l)

theorem storeBlock_swap_loadBlock (b : Block) : storeBlock (loadBlock b).swap = b := storeBlock_le32 b

theorem whiten_swap_whiten (t : Tables) (h : Halves) (i j : Fin 18) :
    whiten t j i (whiten t i j h).swap = h.swap := by
  simp [whiten, Halves.swap]

/-- An iteration on the exchanged halves takes back the final XORs and the iteration before them: what remains are the
XORs that began that iteration. -/
theorem stage_swap_whiten_stage (t : Tables) (h : Halves) (i j a b : Fin 18) :
    stage t (whiten t i j (stage t h (a, b))).swap (j, i) = (whiten t a b h).swap := by
  have cancel (x y z : Word) : x ^^^ y ^^^ z ^^^ y = x ^^^ z := by
    rw [BitVec.xor_assoc x, BitVec.xor_comm y, ← BitVec.xor_assoc]
    simp
  simp [stage, whiten, Halves.swap, cancel]

/-- The final XORs and the eight iterations are taken back one after another, the last first. -/
theorem decHalves_swap_encHalves (t : Tables) (h : Halves) : decHalves t (encHalves t h).swap = h.swap := by
  simp only [decHalves, encHalves, decPairs, encPairs, List.foldl_cons, List.foldl_nil, stage_swap_whiten_stage,
    whiten_swap_whiten]

theorem encHalves_swap_decHalves (t : Tables) (h : Halves) : encHalves t (decHalves t h).swap = h.swap := by
  simp only [decHalves, encHalves, decPairs, encPairs, List.foldl_cons, List.foldl_nil, stage_swap_whiten_stage,
    whiten_swap_whiten]

theorem decBlock_encBlock (t : Tables) (b : Block) : decBlock t (encBlock t b) = b := by
  rw [decBlock, encBlock, loadBlock_storeBlock, decHalves_swap_encHalves, storeBlock_swap_loadBlock]

theorem encBlock_decBlock (t : Tables) (b : Block) : encBlock t (decBlock t b) = b := by
  rw [encBlock, decBlock, loadBlock_storeBlock, encHalves_swap_decHalves, storeBlock_swap_loadBlock]

/-- Settles O30: each of the eight iterations of the one takes back one iteration of the other. -/
theorem blockTransformsInverse : Obligations.BlockTransformsInverse :=
  fun t b => ⟨decBlock_encBlock t b, encBlock_decBlock t b⟩

end Sys2Proof.Machine
end

section
/-! ENCBUF and DECBUF (R133 to R140): the equation of each path, what a run of block transforms reads and leaves, and the
runs of the two commands one after the other. -/

namespace Sys2Proof.Machine

/-! ## The three paths -/

/-- The block transform of a buffer command. -/
theorem exec_eq_cryptBuf {i : Instr} (hi : i = .encbuf ∨ i = .decbuf) : ∃ f, ∀ s, exec i s = cryptBuf f s := by
  obtain rfl | rfl := hi
  · exact ⟨encBlock, fun _ => rfl⟩
  · exact ⟨decBlock, fun _ => rfl⟩

section
variable {f : Tables → Block → Block} {s t : State}

theorem cryptBuf_tooLong (hb : s.ciph.status.busy = false) (hlen : s.cfg.cbufCap < s.ciph.cLen.toNat) :
    cryptBuf f s = .next (raiseC .lengthExceedsBuffer (startC s)) :=
  (if_neg (by simp [hb])).trans (if_pos hlen)

theorem cryptBuf_notKeyed (hb : s.ciph.status.busy = false) (hlen : s.ciph.cLen.toNat ≤ s.cfg.cbufCap)
    (hkeyed : s.ciph.keyed = false) : cryptBuf f s = .next (raiseC .notKeyed (startC s)) := by
  rw [cryptBuf, if_neg (by simp [hb]), if_neg (Nat.not_lt.2 hlen), if_pos hkeyed]

theorem cryptBuf_of_cryptBlocks {m : Memory} (hb : s.ciph.status.busy = false)
    (hlen : s.ciph.cLen.toNat ≤ s.cfg.cbufCap) (hkeyed : s.ciph.keyed = true)
    (hm : cryptBlocks (f s.ciph.tab) (s.ciph.cLen.toNat / 8) 0 s.ciph.cbuf = .ok m) :
    cryptBuf f s = .next (haltC (startC { s with ciph := { s.ciph with cbuf := m } })) := by
  rw [cryptBuf, if_neg (by simp [hb]), if_neg (Nat.not_lt.2 hlen), if_neg (by simp [hkeyed]), hm]

/-- A buffer command that answers without a fault has passed both tests and transformed its blocks. -/
theorem cryptBuf_done (h : cryptBuf f s = .next t) (hfault : t.ciph.status.fault = false) :
    s.ciph.cLen.toNat ≤ s.cfg.cbufCap ∧ s.ciph.keyed = true ∧
      ∃ m, cryptBlocks (f s.ciph.tab) (s.ciph.cLen.toNat / 8) 0 s.ciph.cbuf = .ok m ∧
        t = haltC (startC { s with ciph := { s.ciph with cbuf := m } }) := by
  obtain ⟨_, ⟨_, rfl⟩ | ⟨_, _, rfl⟩ | hdone⟩ := cryptBuf_next h
  · cases hfault
  · cases hfault
  · exact hdone

end

/-- Settles O35: on both paths nothing but the status and the temporaries changes. -/
theorem bufferCommandFaults : Obligations.BufferCommandFaults := by
  intro s i hi hb
  obtain ⟨f, hf⟩ := exec_eq_cryptBuf hi
  rw [hf]
  refine ⟨fun hlen => ?_, fun hlen hkeyed => ?_⟩
  · exact ⟨_, cryptBuf_tooLong hb hlen, rfl⟩
  · exact ⟨_, cryptBuf_notKeyed hb hlen hkeyed, rfl⟩

/-- Settles O38: below eight bytes there is no block to transform. -/
theorem shortBuffersAreDone : Obligations.ShortBuffersAreDone := by
  intro s i hi hb hlen hkeyed hshort
  obtain ⟨f, hf⟩ := exec_eq_cryptBuf hi
  have hnone : cryptBlocks (f s.ciph.tab) (s.ciph.cLen.toNat / 8) 0 s.ciph.cbuf = .ok s.ciph.cbuf := by
    rw [Nat.div_eq_of_lt hshort, cryptBlocks]
  rw [hf]
  exact ⟨_, cryptBuf_of_cryptBlocks hb hlen hkeyed hnone, rfl, rfl, hkeyed, rfl⟩

/-! ## Blocks of a buffer -/

theorem readBlock_eq_ok_iff {m : Memory} {a : Nat} {b : Block} :
    readBlock m a = .ok b ↔ ∀ j (hj : j < 8), Memory.read m (a + j) = some b[j] := by
  refine ⟨readBlock_read, fun h => ?_⟩
  have hread : readBlock m a = .ok (blockOf (fun x => b[x - a]?.getD 0) a) := readBlock_ok fun j hj => by
    simp [h j hj, hj]
  rw [hread]
  refine congrArg Except.ok (Eq.trans ?_ (block_eta b))
  simp [blockOf]

/-- The byte of a buffer at `x`, from the block it lies in. -/
theorem read_of_readBlock {m : Memory} {x : Nat} {b : Block} (h : readBlock m (8 * (x / 8)) = .ok b) :
    Memory.read m x = b[x % 8]? := by
  have hread := readBlock_read h (x % 8) (Nat.mod_lt x (by decide))
  rwa [Nat.div_add_mod, ← Vector.getElem?_eq_getElem] at hread

section
variable {f : Block → Block} {n : Nat} {m m' : Memory}

/-- Block `k` after a run of block transforms is the transform of block `k` before it (R133, R134). -/
theorem cryptBlocks_block (h : cryptBlocks f n 0 m = .ok m') {k : Nat} (hk : k < n) :
    ∃ b, readBlock m (8 * k) = .ok b ∧ readBlock m' (8 * k) = .ok (f b) := by
  obtain ⟨hblocks, _⟩ := cryptBlocks_ok h
  obtain ⟨b, hb, hread⟩ := hblocks k (Nat.zero_le k) (by omega)
  refine ⟨b, hb, readBlock_eq_ok_iff.2 fun j hj => ?_⟩
  rw [hread _ (by omega) (by omega), Nat.add_sub_cancel_left, Vector.getElem?_eq_getElem hj]

theorem cryptBlocks_above (h : cryptBlocks f n 0 m = .ok m') {x : Nat} (hx : 8 * n ≤ x) :
    Memory.read m' x = Memory.read m x := by
  obtain ⟨_, hframe, _⟩ := cryptBlocks_ok h
  exact hframe x (.inr (by omega))

/-- The run of an inverse transform after a run of block transforms gives every byte back. -/
theorem cryptBlocks_undo {f' : Block → Block} (hinv : ∀ b, f' (f b) = b) (h : cryptBlocks f n 0 m = .ok m') :
    ∃ m'', cryptBlocks f' n 0 m' = .ok m'' ∧ ∀ x, Memory.read m'' x = Memory.read m x := by
  obtain ⟨m'', h'⟩ : ∃ m'', cryptBlocks f' n 0 m' = .ok m'' := cryptBlocks_succeeds fun x _ hx => by
    obtain ⟨b, _, hb⟩ := cryptBlocks_block h (k := x / 8) (by omega)
    simp [read_of_readBlock hb, Nat.mod_lt]
  refine ⟨m'', h', fun x => ?_⟩
  by_cases hx : x < 8 * n
  · obtain ⟨b, hb, hfb⟩ := cryptBlocks_block h (k := x / 8) (by omega)
    obtain ⟨b', hb', hfb'⟩ := cryptBlocks_block h' (k := x / 8) (by omega)
    obtain rfl : f b = b' := Except.ok.inj (hfb.symm.trans hb')
    rw [read_of_readBlock hfb', read_of_readBlock hb, hinv]
  · rw [cryptBlocks_above h' (by omega), cryptBlocks_above h (by omega)]

end

/-! ## A buffer command that succeeds -/

/-- A keyed buffer command on written blocks: each byte of a block is that of the transformed block (R133, R134, R135). -/
theorem cryptBuf_transforms (f : Tables → Block → Block) {s : State} {g : Nat → Byte}
    (hb : s.ciph.status.busy = false) (hlen : s.ciph.cLen.toNat ≤ s.cfg.cbufCap) (hkeyed : s.ciph.keyed = true)
    (hread : ∀ x, x < 8 * (s.ciph.cLen.toNat / 8) → Memory.read s.ciph.cbuf x = some (g x)) :
    ∃ t, cryptBuf f s = .next t ∧ CDone s t ∧ t.ciph.tab = s.ciph.tab ∧ t.ciph.keyed = true ∧
      ∀ x, Memory.read t.ciph.cbuf x =
        if x < 8 * (s.ciph.cLen.toNat / 8) then cryptedByte (f s.ciph.tab) g x else Memory.read s.ciph.cbuf x := by
  obtain ⟨m, hm⟩ : ∃ m, cryptBlocks (f s.ciph.tab) (s.ciph.cLen.toNat / 8) 0 s.ciph.cbuf = .ok m :=
    cryptBlocks_succeeds fun x _ hx => by rw [hread x (by omega)]; rfl
  refine ⟨_, cryptBuf_of_cryptBlocks hb hlen hkeyed hm, rfl, rfl, hkeyed, fun x => ?_⟩
  show Memory.read m x = _
  split
  · obtain ⟨b, hblock, hcrypted⟩ := cryptBlocks_block hm (k := x / 8) (by omega)
    have hg : readBlock s.ciph.cbuf (8 * (x / 8)) = .ok (blockOf g (8 * (x / 8))) :=
      readBlock_ok fun j hj => hread _ (by omega)
    obtain rfl : b = blockOf g (8 * (x / 8)) := Except.ok.inj (hblock.symm.trans hg)
    rw [read_of_readBlock hcrypted, show 8 * (x / 8) = x - x % 8 by omega]
    rfl
  · exact cryptBlocks_above hm (by omega)

/-- Settles O33: the transform of ENCBUF is EncBlock. -/
theorem encbufEncryptsBlocks : Obligations.EncbufEncryptsBlocks := fun _ _ => cryptBuf_transforms encBlock

/-- Settles O34: the transform of DECBUF is DecBlock. -/
theorem decbufDecryptsBlocks : Obligations.DecbufDecryptsBlocks := fun _ _ => cryptBuf_transforms decBlock

/-- Settles O37, path by path; the blocks of the path that succeeds end below the length. -/
theorem bufferCommandsPreserve : Obligations.BufferCommandsPreserve := by
  intro s t i hi h
  obtain ⟨f, hf⟩ := exec_eq_cryptBuf hi
  rw [hf] at h
  obtain ⟨_, ⟨_, rfl⟩ | ⟨_, _, rfl⟩ | ⟨_, _, m, hm, rfl⟩⟩ := cryptBuf_next h
  · exact ⟨rfl, fun _ _ => rfl⟩
  · exact ⟨rfl, fun _ _ => rfl⟩
  · exact ⟨rfl, fun _ => cryptBlocks_above hm⟩

/-- Settles O39: equal blocks are read, so equal blocks are transformed by the same tables. -/
theorem blocksAreIndependent : Obligations.BlocksAreIndependent := by
  intro s s' t t' i k k' hi htab h h' hfault hfault' hk hk' hsame j hj
  obtain ⟨f, hf⟩ := exec_eq_cryptBuf hi
  rw [hf] at h h'
  obtain ⟨_, _, m, hm, rfl⟩ := cryptBuf_done h hfault
  obtain ⟨_, _, m', hm', rfl⟩ := cryptBuf_done h' hfault'
  obtain ⟨b, hb, hfb⟩ := cryptBlocks_block hm hk
  obtain ⟨b', hb', hfb'⟩ := cryptBlocks_block hm' hk'
  have hread : readBlock s'.ciph.cbuf (8 * k') = .ok b :=
    readBlock_eq_ok_iff.2 fun j hj => (hsame j hj).symm.trans (readBlock_read hb j hj)
  obtain rfl : b = b' := Except.ok.inj (hread.symm.trans hb')
  rw [← htab] at hfb'
  exact (readBlock_read hfb j hj).trans (readBlock_read hfb' j hj).symm

/-! ## One buffer command after the other -/

theorem cryptBuf_undo {f f' : Tables → Block → Block} (hinv : ∀ tab b, f' tab (f tab b) = b) {s t : State}
    (h : cryptBuf f s = .next t) (hfault : t.ciph.status.fault = false) :
    ∃ u, cryptBuf f' t = .next u ∧ u.ciph.status.done = true ∧
      ∀ x, Memory.read u.ciph.cbuf x = Memory.read s.ciph.cbuf x := by
  obtain ⟨hlen, hkeyed, m, hm, rfl⟩ := cryptBuf_done h hfault
  obtain ⟨m', hm', hread⟩ := cryptBlocks_undo (hinv s.ciph.tab) hm
  exact ⟨_, cryptBuf_of_cryptBlocks rfl hlen hkeyed hm', rfl, hread⟩

/-- Settles O36, by the inverse of the first command's block transform. -/
theorem bufferCommandsUndoEachOther : Obligations.BufferCommandsUndoEachOther := by
  intro s t i j hij
  obtain ⟨rfl, rfl⟩ | ⟨rfl, rfl⟩ := hij
  · exact cryptBuf_undo decBlock_encBlock
  · exact cryptBuf_undo encBlock_decBlock

end Sys2Proof.Machine
end

section
/-! DSTART, the tokens that need no copy, and the two ways to write a copy of 3 to 5 bytes (R160, R163, R167, R171). -/

namespace Sys2Proof.Machine

/-- Settles O24: both are the copy of `2a + b + 2` bytes from the same distance back. -/
theorem scopyAndLcopyAgree : Obligations.ScopyAndLcopyAgree := by
  intro s a b o q sz hq hsize hdist
  have hsz : shortSize a b = longSize sz := congrArg (· + 2) hsize
  rw [exec_scopy_eq, exec_lcopy_eq hq, hdist, hsz]

/-- Settles O14: with D_ILEN within the capacity an idle DCMP goes straight to the start of its run. -/
theorem dstartBeginsRun : Obligations.DstartBeginsRun := by
  intro s hidle hlen
  have hbusy : ¬s.dcmp.status.busy = true := by simp [hidle]
  exact ⟨_, (if_neg hbusy).trans (if_neg (Nat.not_lt.2 hlen)), rfl⟩

/-- Settles O15: the length is tested once the command is accepted, and before anything is taken from it. -/
theorem dstartTooLongFaults : Obligations.DstartTooLongFaults := by
  intro s hidle hlen
  have hbusy : ¬s.dcmp.status.busy = true := by simp [hidle]
  exact ⟨_, (if_neg hbusy).trans (if_pos hlen), rfl⟩

/-- Settles O16: the append of LIT has room, and a write changes one byte. -/
theorem litAppendsByte : Obligations.LitAppendsByte := by
  intro v s hroom
  have happend : append s.cfg.doutCap s.win v =
      .ok { opos := s.dcmp.opos + 1, dout := Memory.write s.dcmp.dout s.dcmp.opos v } :=
    if_pos ((hasRoom_iff _ _).2 hroom)
  have hexec : exec (.lit v) s = _ := congrArg (finishToken s) happend
  exact ⟨_, hexec, rfl, rfl, Memory.read_write s.dcmp.dout s.dcmp.opos v⟩

/-- A position that fits is what its register shows (R32). -/
theorem position32_of_lt {n : Nat} (h : n < 2 ^ 32) : position32 n = BitVec.ofNat 32 n := if_pos h

/-- Settles O20: END has no test, and each register takes its position. -/
theorem endStopsRun : Obligations.EndStopsRun := fun _ => ⟨_, rfl, rfl, position32_of_lt, position32_of_lt⟩

end Sys2Proof.Machine
end

section
/-! A step of a run: the token fetched and what it can answer (R161). -/

namespace Sys2Proof.Machine

/-- The turn of a run whose fetch answers a token (R161). -/
theorem unitsTurn_of_token {s : State} {i : Instr} {c : Cursor} (hb : s.dcmp.status.busy = true)
    (hd : decodeToken s.stream s.dcmp.cur = .ok i c) : unitsTurn s = exec i (s.setCursor c) := by
  rw [unitsTurn, if_pos hb, tokenStep, hd]

/-- The turn of a run whose fetch meets a byte of the stream without value (R37). -/
theorem unitsTurn_of_noValue {s : State} {a : Nat} {c : Cursor} (hb : s.dcmp.status.busy = true)
    (hd : decodeToken s.stream s.dcmp.cur = .stop (.noValue a) c) : unitsTurn s = .fault (.noValue .din a) := by
  rw [unitsTurn, if_pos hb, tokenStep, hd]

/-- With no host action to come and no run under way a step changes nothing (R215, R230). -/
theorem step_of_idle {s : State} (hq : s.hostq = []) (hb : s.dcmp.status.busy = false) : step s = .next s :=
  (step_of_no_action hq).trans (if_neg (by simp [hb]))

/-- Settles O9: a step with no action due is the units' turn, whose fetch does not see the host's queue. -/
theorem stepRunsFetchedToken : Obligations.StepRunsFetchedToken := by
  intro s i c hb hd
  constructor
  · intro hq
    exact (step_of_no_action hq).trans (unitsTurn_of_token hb hd)
  · intro k a rest hq
    have hstep : step s = unitsTurn { s with hostq := ⟨k, a⟩ :: rest } := by
      unfold step machineStep
      rw [hq]
    exact hstep.trans (unitsTurn_of_token (s := { s with hostq := ⟨k, a⟩ :: rest }) hb hd)

end Sys2Proof.Machine
end

section
/-! The length of a run and of its output (R162): a token that goes on takes stream bytes and appends at most 265. -/

namespace Sys2Proof.Machine

theorem ipos_le_of_getByte {st : Stream} {c c' : Cursor} {v : Byte} (h : getByte st c = .ok v c') : c'.ipos ≤ st.len := by
  obtain ⟨_, e⟩ | ⟨_, _, e⟩ | ⟨hlt, v, _, e⟩ := getByte_cases st c <;> rw [e] at h <;> cases h
  exact hlt

theorem ipos_le_of_getU16 {st : Stream} {c c' : Cursor} {f : BitVec 16} (h : getU16 st c = .ok f c') :
    c'.ipos ≤ st.len := by
  obtain ⟨_, e⟩ | ⟨_, a, _, _, e⟩ | ⟨hle, b0, b1, _, _, e⟩ := getU16_cases st c <;> rw [e] at h <;> cases h
  exact hle

/-- Every token ends in a data byte, so a fetched token lies within the stream, wherever the fetch began. -/
theorem TokenRead.ipos_le {st : Stream} {c c' : Cursor} {i : Instr} (h : TokenRead st c i c') : c'.ipos ≤ st.len := by
  cases h with
  | lit _ h | scopy _ _ _ _ h | lcopyx _ _ _ _ _ h => exact ipos_le_of_getByte h
  | endMark _ _ h | lcopy _ _ h _ => exact ipos_le_of_getU16 h

theorem ctrlBits_pos {i : Instr} (hi : Instr.isToken i = true) : 0 < i.ctrlBits := by
  cases i with
  | keyload | encbuf | decbuf | dstart => cases hi
  | lit | scopy | lcopy | lcopyx | endMark => exact Nat.succ_pos _

theorem dataBytes_pos {i : Instr} (hi : Instr.isToken i = true) : 0 < i.dataBytes := by
  cases i with
  | keyload | encbuf | decbuf | dstart => cases hi
  | lit | scopy | lcopy | lcopyx | endMark => exact Nat.succ_pos _

/-- A token takes a data byte, and with no control bit cached a control byte besides (R98, R162). -/
theorem ipos_of_decodeToken {st : Stream} {c c' : Cursor} {i : Instr} (h : decodeToken st c = .ok i c') :
    c.ipos < c'.ipos ∧ (c.bitcnt = 0 → c.ipos + 2 ≤ c'.ipos) := by
  obtain ⟨_, k, hpos, hcnt⟩ := (decodeToken_tokenRead h).takes
  have hi := decodeToken_answersToken st c i c' h
  have hbits := ctrlBits_pos hi
  have hbytes := dataBytes_pos hi
  omega

/-! ## What a token can answer -/

theorem finishToken_answers (s : State) (r : WinOut Win) :
    (∃ t, finishToken s r = .next t) ∨ ∃ a, finishToken s r = .fault (.noValue .dout a) := by
  cases r with
  | ok w => exact .inl ⟨_, rfl⟩
  | raise c => exact .inl ⟨_, rfl⟩
  | noValue a => exact .inr ⟨a, rfl⟩

/-- A token answers a next state or stops at a window byte without value; no token is refused. -/
theorem exec_token_answers {i : Instr} (hi : Instr.isToken i = true) (s : State) :
    (∃ t, exec i s = .next t) ∨ ∃ a, exec i s = .fault (.noValue .dout a) := by
  cases i with
  | keyload | encbuf | decbuf | dstart => cases hi
  | lit | scopy | lcopy | lcopyx => exact finishToken_answers s _
  | endMark => exact .inl ⟨_, rfl⟩

/-- A token that answers a next state appends, takes a fault or is END (R161). -/
theorem exec_token_next {i : Instr} (hi : Instr.isToken i = true) {s t : State} (h : exec i s = .next t) :
    TokenNext s t ∨ execEnd s = .next t := by
  cases i with
  | keyload | encbuf | decbuf | dstart => cases hi
  | lit => exact .inl (execLit_next h)
  | scopy => exact .inl (execScopy_next h)
  | lcopy => exact .inl (execLcopy_next h)
  | lcopyx => exact .inl (execLcopyx_next h)
  | endMark => exact .inr h

/-! ## The run -/

/-- A run under way, left alone by the host, whose output so far is within 265 bytes for each stream byte read. -/
structure InRun (s : State) : Prop where
  hostq : s.hostq = []
  busy : s.dcmp.status.busy = true
  opos_le : s.dcmp.opos ≤ 265 * s.dcmp.cur.ipos

/-- `t` is a later state of the run `s` is in: a token of the stream lies between them. -/
structure Advanced (s t : State) : Prop where
  inRun : InRun t
  ilen : t.dcmp.ilen = s.dcmp.ilen
  ipos_lt : s.dcmp.cur.ipos < t.dcmp.cur.ipos
  ipos_le : t.dcmp.cur.ipos ≤ s.dcmp.ilen
  fresh : s.dcmp.cur.bitcnt = 0 → s.dcmp.cur.ipos + 2 ≤ t.dcmp.cur.ipos

/-- The run over a stream of `len` bytes is over, and its output, where valid, within the bound of R162. -/
def EndedWithin (len : Nat) (t : State) : Prop :=
  t.dcmp.status.busy = false ∧ (t.dcmp.status.fault = false → t.dcmp.opos ≤ 265 * len)

theorem raiseD_endedWithin (c : DCause) (s : State) (len : Nat) : EndedWithin len (raiseD c s) := ⟨rfl, nofun⟩

/-- A token of a run leaves the run further on, or over. -/
theorem InRun.token {s t : State} {i : Instr} {c : Cursor} (h : InRun s)
    (hd : decodeToken s.stream s.dcmp.cur = .ok i c) (ht : exec i (s.setCursor c) = .next t) :
    Advanced s t ∨ EndedWithin s.dcmp.ilen t := by
  obtain ⟨hlt, hfresh⟩ := ipos_of_decodeToken hd
  have hle : c.ipos ≤ s.dcmp.ilen := (decodeToken_tokenRead hd).ipos_le
  have hopos := h.opos_le
  obtain ht | ht := exec_token_next (decodeToken_answersToken _ _ i c hd) ht
  · cases ht with
    | moved w hw e =>
      subst e
      have hw := hw.opos_le.2
      have hrun : w.opos ≤ 265 * c.ipos := by
        simp only [State.setCursor_win, State.win_opos] at hw
        omega
      exact .inl ⟨⟨h.hostq, h.busy, hrun⟩, rfl, hlt, hle, hfresh⟩
    | raised k e => exact .inr (e ▸ raiseD_endedWithin k _ _)
  · cases ht
    exact .inr ⟨rfl, fun _ => by show s.dcmp.opos ≤ _; omega⟩

/-- A step of a run goes on, ends the run, or is the model's stop at a byte without value. -/
theorem InRun.step {s : State} (h : InRun s) :
    (∃ t, step s = .next t ∧ (Advanced s t ∨ EndedWithin s.dcmp.ilen t)) ∨ ∃ sp a, step s = .fault (.noValue sp a) := by
  rw [step_of_no_action h.hostq]
  cases hd : decodeToken s.stream s.dcmp.cur with
  | ok i c =>
    rw [unitsTurn_of_token h.busy hd]
    obtain ⟨t, ht⟩ | ⟨a, ha⟩ := exec_token_answers (decodeToken_answersToken _ _ i c hd) (s.setCursor c)
    · exact .inl ⟨t, ht, h.token hd ht⟩
    · exact .inr ⟨_, a, ha⟩
  | stop r c =>
    cases r with
    | exhausted => exact .inl ⟨_, unitsTurn_of_exhausted h.busy hd, .inr (raiseD_endedWithin _ _ _)⟩
    | noValue a => exact .inr ⟨_, a, unitsTurn_of_noValue h.busy hd⟩

/-- Within `n` steps the run over a stream of `len` bytes is over, or the model stops at a byte without value. -/
def EndsIn (n len : Nat) (s : State) : Prop :=
  ∃ k, k ≤ n ∧ ((∃ t, runFor k s = .next t ∧ EndedWithin len t) ∨ ∃ sp a, runFor k s = .fault (.noValue sp a))

theorem runFor_succ_of_next {s t : State} (h : step s = .next t) (n : Nat) : runFor (n + 1) s = runFor n t := by
  rw [runFor, h]

theorem runFor_succ_of_fault {s : State} {f : Fault} (h : step s = .fault f) (n : Nat) :
    runFor (n + 1) s = .fault f := by
  rw [runFor, h]

/-- A run ends one step after every state its first step can leave it in has ended. -/
theorem InRun.endsIn_succ {s : State} {n : Nat} (h : InRun s) (hnext : ∀ t, Advanced s t → EndsIn n s.dcmp.ilen t) :
    EndsIn (n + 1) s.dcmp.ilen s := by
  obtain ⟨t, ht, hadv | hend⟩ | ⟨sp, a, ha⟩ := h.step
  · obtain ⟨k, hk, hrun⟩ := hnext t hadv
    exact ⟨k + 1, Nat.succ_le_succ hk, by rwa [runFor_succ_of_next ht]⟩
  · exact ⟨1, Nat.succ_pos n, .inl ⟨t, runFor_succ_of_next ht 0, hend⟩⟩
  · exact ⟨1, Nat.succ_pos n, .inr ⟨sp, a, runFor_succ_of_fault ha 0⟩⟩

/-- A run ends within one step more than it has stream bytes left. -/
theorem InRun.endsIn {n : Nat} {s : State} (h : InRun s) (hn : s.dcmp.ilen ≤ s.dcmp.cur.ipos + n) :
    EndsIn (n + 1) s.dcmp.ilen s := by
  induction n generalizing s with
  | zero => exact h.endsIn_succ fun t ht => absurd ht.ipos_lt (Nat.not_lt.2 (Nat.le_trans ht.ipos_le hn))
  | succ n ih =>
    refine h.endsIn_succ fun t ht => ?_
    have hlt := ht.ipos_lt
    exact ht.ilen ▸ ih ht.inRun (by rw [ht.ilen]; omega)

/-- Settles O25: the first token of a run takes two stream bytes, each later one at least one. -/
theorem runEndsWithinItsLength : Obligations.RunEndsWithinItsLength := by
  intro s hq hb hipos hcnt hopos
  have h : InRun s := ⟨hq, hb, by omega⟩
  have hends : EndsIn (max 1 s.dcmp.ilen - 1 + 1) s.dcmp.ilen s := by
    refine h.endsIn_succ fun t ht => ?_
    have hfresh := ht.fresh hcnt
    have hle := ht.ipos_le
    have ht' := ht.inRun.endsIn (n := s.dcmp.ilen - 2) (by rw [ht.ilen]; omega)
    rwa [ht.ilen, show s.dcmp.ilen - 2 + 1 = max 1 s.dcmp.ilen - 1 by omega] at ht'
  obtain ⟨k, hk, hrun⟩ := hends
  exact ⟨k, by omega, hrun.imp_left fun ⟨t, ht, hidle, hout⟩ => ⟨t, ht, hidle, hout⟩⟩

end Sys2Proof.Machine
end

section
/-! What a run depends on (R172): two runs with the same input, token by token. -/

namespace Sys2Proof.Machine

/-- Two windows with the same write position and the same bytes below it. -/
def SameWindow (w1 w2 : Win) : Prop :=
  w1.opos = w2.opos ∧ ∀ a, a < w1.opos → Memory.read w1.dout a = Memory.read w2.dout a

/-- A window operation that succeeds on the first window does the same to the second. -/
def Follows (r1 r2 : WinOut Win) : Prop := ∀ w1, r1 = .ok w1 → ∃ w2, r2 = .ok w2 ∧ SameWindow w1 w2

theorem append_follows {w1 w2 : Win} (h : SameWindow w1 w2) (cap : Option Nat) (v : Byte) :
    Follows (append cap w1 v) (append cap w2 v) := by
  obtain ⟨hopos, hread⟩ := h
  intro w hw
  obtain ⟨hroom, e⟩ | ⟨_, e⟩ := append_cases cap w1 v <;> rw [e] at hw <;> cases hw
  refine ⟨_, if_pos (hopos ▸ hroom), by simp only [hopos], fun a ha => ?_⟩
  simp only at ha
  rw [Memory.read_write, Memory.read_write, hopos]
  split
  · rfl
  · exact hread a (by omega)

/-- A read behind the write position finds the same byte (R64). -/
theorem SameWindow.winRead {w1 w2 : Win} (h : SameWindow w1 w2) {off : Int} (hoff : off < 0) :
    winRead w1 off = winRead w2 off := by
  obtain ⟨hopos, hread⟩ := h
  unfold Machine.winRead
  rw [← hopos]
  split
  · rfl
  · rw [hread _ (by omega)]

theorem copySteps_follows {cap : Option Nat} {off : Int} (hoff : off < 0) (n : Nat) {w1 w2 : Win}
    (h : SameWindow w1 w2) : Follows (copySteps cap off n w1) (copySteps cap off n w2) := by
  induction n generalizing w1 w2 with
  | zero =>
    intro w hw
    cases hw
    exact ⟨w2, rfl, h⟩
  | succ n ih =>
    intro w hw
    simp only [copySteps] at hw ⊢
    rw [← h.winRead hoff]
    cases hv : Machine.winRead w1 off with
    | raise c => rw [hv] at hw; cases hw
    | noValue a => rw [hv] at hw; cases hw
    | ok v =>
      rw [hv] at hw
      simp only [WinOut.andThen] at hw ⊢
      cases ha : append cap w1 v with
      | raise c => rw [ha] at hw; cases hw
      | noValue a => rw [ha] at hw; cases hw
      | ok u1 =>
        rw [ha] at hw
        obtain ⟨u2, e, hu⟩ := append_follows h cap v u1 ha
        rw [e]
        exact ih hu w hw

theorem copy_follows {w1 w2 : Win} (h : SameWindow w1 w2) (cap : Option Nat) (off : Int) (n : Nat) :
    Follows (copy cap off n w1) (copy cap off n w2) := by
  intro w hw
  obtain ⟨hoff, hw⟩ := copy_ok hw
  rw [copy_of_neg hoff]
  exact copySteps_follows hoff n h w hw

/-! ## Tokens and steps of two runs -/

/-- The second run does what the first does, unless that takes a fault and so ends. -/
def Accompanies (o1 o2 : Out) : Prop :=
  ∀ t1, o1 = .next t1 → (∃ c s, t1 = raiseD c s ∧ s.hostq = []) ∨ ∃ t2, o2 = .next t2 ∧ SameRun t1 t2

theorem SameRun.sameWindow {s1 s2 : State} (h : SameRun s1 s2) : SameWindow s1.win s2.win := by
  obtain ⟨_, _, _, _, _, _, hopos, _, _, hdout⟩ := h
  exact ⟨hopos, hdout⟩

theorem SameRun.setCursor {s1 s2 : State} (h : SameRun s1 s2) (c : Cursor) :
    SameRun (s1.setCursor c) (s2.setCursor c) := by
  obtain ⟨hcap, hmode, hq1, hq2, hilen, _, hopos, hstatus, hdin, hdout⟩ := h
  exact ⟨hcap, hmode, hq1, hq2, hilen, rfl, hopos, hstatus, hdin, hdout⟩

theorem SameRun.finishToken {s1 s2 : State} (h : SameRun s1 s2) {r1 r2 : WinOut Win} (hr : Follows r1 r2) :
    Accompanies (finishToken s1 r1) (finishToken s2 r2) := by
  obtain ⟨hcap, hmode, hq1, hq2, hilen, hcur, _, hstatus, hdin, _⟩ := h
  intro t1 ht
  obtain ⟨w1, hw1, rfl⟩ | ⟨c, _, rfl⟩ := finishToken_next ht
  · obtain ⟨w2, rfl, hopos, hdout⟩ := hr w1 hw1
    exact .inr ⟨_, rfl, hcap, hmode, hq1, hq2, hilen, hcur, hopos, hstatus, hdin, hdout⟩
  · exact .inl ⟨c, s1, rfl, hq1⟩

theorem SameRun.execEnd {s1 s2 : State} (h : SameRun s1 s2) : Accompanies (execEnd s1) (execEnd s2) := by
  obtain ⟨hcap, hmode, hq1, hq2, hilen, hcur, hopos, hstatus, hdin, hdout⟩ := h
  intro t1 ht
  cases ht
  exact .inr ⟨_, rfl, hcap, hmode, hq1, hq2, hilen, hcur, hopos, congrArg Status.halt hstatus, hdin, hdout⟩

theorem SameRun.exec {s1 s2 : State} (h : SameRun s1 s2) {i : Instr} (hi : Instr.isToken i = true) :
    Accompanies (exec i s1) (exec i s2) := by
  have hw := h.sameWindow
  obtain ⟨hcap, hmode, _⟩ := id h
  cases i with
  | keyload | encbuf | decbuf | dstart => cases hi
  | lit v => exact h.finishToken (hcap ▸ append_follows hw _ v)
  | scopy a b o => exact h.finishToken (hcap ▸ copy_follows hw _ _ _)
  | lcopy q sz => exact h.finishToken (hcap ▸ hmode ▸ copy_follows hw _ _ _)
  | lcopyx q n => exact h.finishToken (hcap ▸ hmode ▸ copy_follows hw _ _ _)
  | endMark => exact h.execEnd

/-- The second run fetches the token the first fetches: it lies within the stream (R97). -/
theorem SameRun.decodeToken {s1 s2 : State} (h : SameRun s1 s2) {i : Instr} {c : Cursor}
    (hd : decodeToken s1.stream s1.dcmp.cur = .ok i c) : decodeToken s2.stream s2.dcmp.cur = .ok i c := by
  obtain ⟨_, _, _, _, hilen, hcur, _, _, hdin, _⟩ := h
  have hle : c.ipos ≤ s1.dcmp.ilen := (decodeToken_tokenRead hd).ipos_le
  have hle2 : c.ipos ≤ s2.dcmp.ilen := hilen ▸ hle
  rw [← hcur]
  exact decodeReadsOnlyWhatItConsumes _ _ _ _ _ hd hle2 fun a _ ha => (hdin a (Nat.lt_of_lt_of_le ha hle)).symm

theorem SameRun.step {s1 s2 : State} (h : SameRun s1 s2) : Accompanies (step s1) (step s2) := by
  obtain ⟨_, _, hq1, hq2, _, _, _, hstatus, _, _⟩ := id h
  intro t1 ht
  cases hb : s1.dcmp.status.busy with
  | false =>
    rw [step_of_idle hq1 hb] at ht
    cases ht
    exact .inr ⟨s2, step_of_idle hq2 (hstatus ▸ hb), h⟩
  | true =>
    rw [step_of_no_action hq1] at ht
    rw [step_of_no_action hq2]
    cases hd : Sys2Proof.decodeToken s1.stream s1.dcmp.cur with
    | ok i c =>
      rw [unitsTurn_of_token hb hd] at ht
      rw [unitsTurn_of_token (hstatus ▸ hb) (h.decodeToken hd)]
      exact (h.setCursor c).exec (decodeToken_answersToken _ _ i c hd) t1 ht
    | stop r c =>
      cases r with
      | exhausted =>
        rw [unitsTurn_of_exhausted hb hd] at ht
        cases ht
        exact .inl ⟨_, _, rfl, hq1⟩
      | noValue a =>
        rw [unitsTurn_of_noValue hb hd] at ht
        cases ht

/-- With no run under way and no host action to come any number of steps changes nothing. -/
theorem runFor_of_idle {s : State} (hq : s.hostq = []) (hb : s.dcmp.status.busy = false) (n : Nat) :
    runFor n s = .next s := by
  induction n with
  | zero => rfl
  | succ n ih => rw [runFor_succ_of_next (step_of_idle hq hb), ih]

theorem runFor_succ_eq_next {s t : State} {n : Nat} (h : runFor (n + 1) s = .next t) :
    ∃ u, step s = .next u ∧ runFor n u = .next t := by
  rw [runFor] at h
  cases hs : step s with
  | next u => rw [hs] at h; exact ⟨u, rfl, h⟩
  | fault r => rw [hs] at h; cases h
  | refused r => rw [hs] at h; cases h

/-- Settles O26, step by step: a step that takes a fault leaves FAULT at 1 for good. -/
theorem runDependsOnlyOnItsInput : Obligations.RunDependsOnlyOnItsInput := by
  intro n
  induction n with
  | zero =>
    intro s1 s2 t1 h hrun _
    cases hrun
    exact ⟨s2, rfl, h⟩
  | succ n ih =>
    intro s1 s2 t1 h hrun hfault
    obtain ⟨u1, hu1, hrun⟩ := runFor_succ_eq_next hrun
    obtain ⟨c, s, rfl, hq⟩ | ⟨u2, hu2, hu⟩ := h.step u1 hu1
    · rw [runFor_of_idle (s := raiseD c s) hq rfl] at hrun
      cases hrun
      cases hfault
    · obtain ⟨t2, ht2, ht⟩ := ih u1 u2 t1 hu hrun hfault
      exact ⟨t2, by rw [runFor_succ_of_next hu2, ht2], ht⟩

end Sys2Proof.Machine
end

section
/-! A CIPH command that answers leaves a status that says how it ended (R201, R206); a machine with nothing to do waits
(R215, R230). -/

namespace Sys2Proof.Machine

/-- A command that was started and ends successfully is DONE, whatever the status before it (R206). -/
theorem Status.halt_start (st : Status) :
    st.start.halt = { busy := false, done := true, fault := false, cause := 0 } := rfl

/-- A command that was started and takes a fault is FAULT with its code and not DONE (R206). -/
theorem Status.raise_start (st : Status) (k : BitVec 4) :
    st.start.raise k = { busy := false, done := false, fault := true, cause := k } := rfl

theorem cryptBuf_status {f : Tables → Block → Block} {s t : State} (h : cryptBuf f s = .next t) :
    t.ciph.status = s.ciph.status.start.halt ∨
    t.ciph.status = s.ciph.status.start.raise CCause.lengthExceedsBuffer.code ∨
    t.ciph.status = s.ciph.status.start.raise CCause.notKeyed.code := by
  obtain ⟨_, ⟨_, rfl⟩ | ⟨_, _, rfl⟩ | ⟨_, _, m, _, rfl⟩⟩ := cryptBuf_next h
  · exact .inr (.inl rfl)
  · exact .inr (.inr rfl)
  · exact .inl rfl

theorem execKeyload_status {s t : State} (h : execKeyload s = .next t) :
    t.ciph.status = s.ciph.status.start.halt ∨
    t.ciph.status = s.ciph.status.start.raise CCause.lengthExceedsBuffer.code ∨
    t.ciph.status = s.ciph.status.start.raise CCause.keyTooShort.code := by
  obtain ⟨_, ⟨_, rfl⟩ | ⟨_, _, rfl⟩ | ⟨_, _, k, _, rfl⟩⟩ := execKeyload_next h
  · exact .inr (.inl rfl)
  · exact .inr (.inr rfl)
  · exact .inl rfl

/-- The commands of CIPH are KEYLOAD and the two buffer commands. -/
theorem eq_keyload_or_buffer_of_isCiph {i : Instr} (hi : Instr.isCiph i = true) :
    i = .keyload ∨ i = .encbuf ∨ i = .decbuf := by
  cases i with
  | keyload => exact .inl rfl
  | encbuf => exact .inr (.inl rfl)
  | decbuf => exact .inr (.inr rfl)
  | dstart | lit | scopy | lcopy | lcopyx | endMark => cases hi

/-- Settles O42: every command starts, and then halts or raises one of its own two causes. -/
theorem ciphCommandsEndDoneOrFaulted : Obligations.CiphCommandsEndDoneOrFaulted := by
  intro s t i hi h
  rw [← Status.halt_start s.ciph.status]
  simp only [← Status.raise_start s.ciph.status]
  obtain rfl | hbuf := eq_keyload_or_buffer_of_isCiph hi
  · obtain hdone | hlen | hshort := execKeyload_status h
    · exact .inl hdone
    · exact .inr ⟨_, hlen, .inl rfl⟩
    · exact .inr ⟨_, hshort, .inr (.inl ⟨rfl, rfl⟩)⟩
  · obtain ⟨f, hf⟩ := exec_eq_cryptBuf hbuf
    have hne : i ≠ .keyload := by rintro rfl; simp at hbuf
    obtain hdone | hlen | hunkeyed := cryptBuf_status (hf s ▸ h)
    · exact .inl hdone
    · exact .inr ⟨_, hlen, .inl rfl⟩
    · exact .inr ⟨_, hunkeyed, .inr (.inr ⟨hne, rfl⟩)⟩

/-- Settles O13: no action is due and no run is under way, so it is the units' turn and no unit moves. -/
theorem idleMachineWaits : Obligations.IdleMachineWaits := fun _ => step_of_idle

end Sys2Proof.Machine
end

section
/-! The operand registers of a busy unit (R239, D5, U7). -/

namespace Sys2Proof.Machine

/-- The operand register of a unit, number 2 of either, is not read while the unit is busy; the reading of U7 is log 13's. -/
theorem hostReadReg_operand_of_busy {s : State} {u : UnitId} (hb : s.busy u = true) :
    hostReadReg u 2 s = .refused (.busyAccess u) :=
  if_pos ⟨rfl, hb⟩

/-- Settles O57: the due read meets the operand register of a busy unit, once for each unit. -/
theorem busyOperandRegisterIsNotRead : Obligations.BusyOperandRegisterIsNotRead := by
  refine fun s rest => ⟨fun hq hb => ?_, fun hq hb => ?_⟩
  · exact (step_of_due hq).trans (hostReadReg_operand_of_busy hb)
  · exact (step_of_due hq).trans (hostReadReg_operand_of_busy hb)

end Sys2Proof.Machine
end
